-- ==== Sys2Proof/Word.lean ====
section
/-! DEFINITION. The word types of SLFB: the 32-bit request word (R33, R54) and the byte of a framebuffer
row, a command byte, a response datum and a transport datum (R8, R9). -/

namespace Sys2Proof

/-- A request word, 32 bits, presented whole on the request port (R33, R36, R54). -/
abbrev Word := BitVec 32

/-- Eight bits: one framebuffer row (R15), one command byte (R63), one response datum (R21). -/
abbrev Byte := BitVec 8

end Sys2Proof
end

