-- ==== Sys2Proof/Machine/Flags.lean ====
section
/-! DEFINITION. SLFB has no flags and no condition codes (R22); what takes their place is the status written to
`rsp_status` (R13, R105). -/

namespace Sys2Proof.Machine

/-- The statuses a request or the reset sequence can end with (R105). -/
inductive Status where
  | ok
  | outOfRange
  | invalidArgument
  | shapeMismatch
  | unsupportedOperation
  | transportError
  | initializationError
  | illegalRequest
deriving DecidableEq, Repr

/-- The status's number in the 4-bit `rsp_status` (R105). Codes 8 to 15 are never written. -/
def Status.code : Status → BitVec 4
  | .ok => 0
  | .outOfRange => 1
  | .invalidArgument => 2
  | .shapeMismatch => 3
  | .unsupportedOperation => 4
  | .transportError => 5
  | .initializationError => 6
  | .illegalRequest => 7

end Sys2Proof.Machine
end

