-- ==== Sys2Proof/Config.lean ====
section
/-! DEFINITION. What an implementation fixes, and the one value the spec leaves free: the transport's answer
to each item (R9, R44, R100). R7, R8 and R9 fix every size, so nothing else is open. -/

namespace Sys2Proof

/-- The answer the transport gives to one item (R44): the chip write succeeded or it failed. -/
inductive Answer where
  | ok
  | fail
deriving DecidableEq, Repr

namespace Config

/-- ROWS = 16, fixed (R7). -/
def rows : Nat := 16

/-- COLS = 8, fixed (R7). -/
def cols : Nat := 8

/-- The largest contents of the transmit queue, the 19 items of the reset sequence (R9, R23). -/
def queueDepth : Nat := 19

/-- FREE VALUE (log entry 2). What the transport says to the item in flight at draw number `n`, where the
state's own list of replies names nothing: `some .ok`, `some .fail`, or `none`, not answered yet (R44, R100,
R138). It has no body, so every statement holds whatever it is. -/
opaque transportReply : Nat → Option Answer

end Config

end Sys2Proof
end

