-- ==== Sys2Proof/Syntax.lean ====
section
/-! DEFINITION. The requests of SLFB as terms (R53): one constructor per row of the opcode table, its operands
the unbounded integers of R11. -/

namespace Sys2Proof

/-- The two forms in which LDBM reaches the block: the binary header, whose matrix follows as payload words
(R59, R60), and the request term, which carries the matrix itself, ragged ones included (R53, R84). -/
inductive LdbmOperand where
  /-- `LDBM_HEADER(R, C)` of R62: both counts are `zext_8` of a field, so 0 to 255. -/
  | header (rowCount colCount : Fin 256)
  /-- `LDBM(M)` of R53: `m[i][j]` is row `i`, column `j` (R89). -/
  | matrix (m : List (List Int))
deriving DecidableEq, Repr

/-- A request (R53). -/
inductive Instr where
  /-- GET: read one cell (R78). -/
  | get (row col : Int)
  /-- SET: write one cell (R79). A Boolean `v` is coerced to 1 or 0 before the term is built (R11). -/
  | set (row col v : Int)
  /-- DEL: never supported (R80). -/
  | del (row col : Int)
  /-- FILL: set every cell to one value (R86). The pseudo-instruction CLR is `fill 0` (R69, R87). -/
  | fill (v : Int)
  /-- LDBM: load the whole bitmap (R89, R90). -/
  | ldbm (operand : LdbmOperand)
  /-- FLUSH: push the framebuffer to the chip (R95). -/
  | flush
  /-- ENCSYS: encode system setup; the operand is a Boolean, its domain is total (R58, R70). -/
  | encsys (osc : Bool)
  /-- ENCBLK: encode a blink mode (R71). -/
  | encblk (mode : Int)
  /-- ENCBRT: encode a brightness level (R72). -/
  | encbrt (level : Int)
  /-- SETBLK: encode and dispatch a blink mode (R97). -/
  | setblk (mode : Int)
  /-- SETBRT: encode and dispatch a brightness level (R98). -/
  | setbrt (level : Int)
deriving DecidableEq, Repr

end Sys2Proof
end

