-- ==== Sys2Proof/WellFormed.lean ====
section
/-! DEFINITION. Which request terms a word (or, for LDBM with its matrix, a run of words) can carry: every
operand fits the field that R56, R57 and R59 give it. A term outside these bounds still has its meaning
(R53: the terms are the normative level); only its encoding does not exist, and the assembler refuses it (R68). -/

namespace Sys2Proof

/-- The integer fits a signed 8-bit field (R11, R57, R68: -128..127). -/
def fitsSext8 (n : Int) : Bool := decide (-128 ≤ n ∧ n ≤ 127)

/-- The integer fits a signed 32-bit payload word (R11, R59). -/
def fitsSint32 (n : Int) : Bool := decide (-2147483648 ≤ n ∧ n ≤ 2147483647)

/-- The column count a matrix's header carries: the length of its first row, 0 for a matrix of no rows. -/
def colCount (m : List (List Int)) : Nat := (m.headD []).length

/-- The binary form carries only rectangular matrices of at most 255 rows and 255 columns, of 32-bit
elements (R59). -/
def matrixFits (m : List (List Int)) : Bool :=
  decide (m.length < 256) && decide (colCount m < 256) &&
    m.all fun row => decide (row.length = colCount m) && row.all fitsSint32

/-- The operands of the request fit its encoding. -/
def Instr.wf : Instr → Bool
  | .get row col => fitsSext8 row && fitsSext8 col
  | .set row col v => fitsSext8 row && fitsSext8 col && fitsSext8 v
  | .del row col => fitsSext8 row && fitsSext8 col
  | .fill v => fitsSext8 v
  | .ldbm (.header _ _) => true
  | .ldbm (.matrix m) => matrixFits m
  | .flush => true
  | .encsys _ => true
  | .encblk mode => fitsSext8 mode
  | .encbrt level => fitsSext8 level
  | .setblk mode => fitsSext8 mode
  | .setbrt level => fitsSext8 level

end Sys2Proof
end

