-- ==== Sys2Proof/Decode.lean ====
section
/-! DEFINITION. The decoder of request words, total on 32-bit words (R62), which rejects by name (R61); the
framing of a whole request on the port (R59, R60); and the encoder, written from the same tables (R54 to R56). -/

namespace Sys2Proof

/-! ### The fields of a request word (R54) -/

/-- OP, bits 31:28. -/
def opField (w : Word) : BitVec 4 := w.extractLsb' 28 4
/-- A, bits 27:20. -/
def aField (w : Word) : Byte := w.extractLsb' 20 8
/-- B, bits 19:12. -/
def bField (w : Word) : Byte := w.extractLsb' 12 8
/-- V, bits 11:4. -/
def vField (w : Word) : Byte := w.extractLsb' 4 8
/-- RSV, bits 3:0, reserved. -/
def rsvField (w : Word) : BitVec 4 := w.extractLsb' 0 4

/-- `sext_8` of a field: its two's-complement value (R11, R57). -/
def sext8 (f : Byte) : Int := f.toInt
/-- `zext_8` of a count field: 0 to 255 (R11, R59). -/
def zext8 (f : Byte) : Fin 256 := f.toFin
/-- `sint_32` of a payload word: the whole word, signed (R11, R59). -/
def sint32 (w : Word) : Int := w.toInt

/-! ### The decoder -/

/-- Why a word spells no request (R61). Each of them is answered with IllegalRequest. -/
inductive Illegal where
  /-- OP is one of 0x0, 0x7, 0xD, 0xE, 0xF (R55). -/
  | reservedOpcode
  /-- RSV is not 0 (R54). -/
  | reservedBits
  /-- A field that R56 requires to be 0 is not 0. -/
  | unusedField
  /-- ENCSYS with A neither 0x00 nor 0x01 (R58). -/
  | oscillatorField
deriving DecidableEq, Repr

/-- `i` where the fields that must be 0 are 0, else the illegal word of R61. -/
def unusedZero (zero : Bool) (i : Instr) : Except Illegal Instr :=
  if zero then .ok i else .error .unusedField

/-- The decoder of R62. -/
def decode (w : Word) : Except Illegal Instr :=
  let a := aField w
  let b := bField w
  let v := vField w
  if rsvField w ≠ 0 then .error .reservedBits
  else match (opField w).toNat with
    | 0x1 => unusedZero (v == 0) (.get (sext8 a) (sext8 b))
    | 0x2 => .ok (.set (sext8 a) (sext8 b) (sext8 v))
    | 0x3 => unusedZero (v == 0) (.del (sext8 a) (sext8 b))
    | 0x4 => unusedZero (a == 0 && b == 0) (.fill (sext8 v))
    | 0x5 => unusedZero (v == 0) (.ldbm (.header (zext8 a) (zext8 b)))
    | 0x6 => unusedZero (a == 0 && b == 0 && v == 0) .flush
    | 0x8 =>
      if b == 0 && v == 0 then
        if a = 0x00 then .ok (.encsys false)
        else if a = 0x01 then .ok (.encsys true)
        else .error .oscillatorField
      else .error .unusedField
    | 0x9 => unusedZero (b == 0 && v == 0) (.encblk (sext8 a))
    | 0xA => unusedZero (b == 0 && v == 0) (.encbrt (sext8 a))
    | 0xB => unusedZero (b == 0 && v == 0) (.setblk (sext8 a))
    | 0xC => unusedZero (b == 0 && v == 0) (.setbrt (sext8 a))
    | _ => .error .reservedOpcode

/-! ### The framing of a whole request (R59, R60) -/

/-- How many payload words follow a first word (R60): `R * C` after a legal LDBM header, none after any
other word, an illegal one included. -/
def payloadLength (w : Word) : Nat :=
  match decode w with
  | .ok (.ldbm (.header r c)) => r.val * c.val
  | _ => 0

/-- The length in words of the request a first word begins (R60: 1 to 65026). -/
def requestLength (w : Word) : Nat := 1 + payloadLength w

/-- The matrix whose elements arrived in row-major order: `M[i][j] = e[i*C + j]` (R59, R90). The default 0 of
`getD` is never read where `e` has `rowCount * cols` elements. -/
def payloadMatrix (rowCount cols : Nat) (e : List Int) : List (List Int) :=
  (List.range rowCount).map fun i => (List.range cols).map fun j => e.getD (i * cols + j) 0

/-- Why a list of words does not begin with a whole request. -/
inductive FrameError where
  /-- The first word spells no request (R61). -/
  | illegal (why : Illegal)
  /-- The words end before the request does. -/
  | incomplete
deriving DecidableEq, Repr

/-- The request a list of words begins with, and the words after it: an LDBM header is read together with its
payload and becomes `LDBM(M)` (R59, R62). -/
def decodeRequest : List Word → Except FrameError (Instr × List Word)
  | [] => .error .incomplete
  | w :: ws =>
    match decode w with
    | .error why => .error (.illegal why)
    | .ok (.ldbm (.header r c)) =>
      if ws.length < r.val * c.val then .error .incomplete
      else .ok (.ldbm (.matrix (payloadMatrix r.val c.val ((ws.take (r.val * c.val)).map sint32))),
        ws.drop (r.val * c.val))
    | .ok i => .ok (i, ws)

/-! ### The encoder (R54 to R57, R59) -/

/-- `{OP, A, B, V, RSV}` with RSV = 0 (R54). -/
def mkWord (op : BitVec 4) (a b v : Byte) : Word := op ++ a ++ b ++ v ++ (0#4 : BitVec 4)

/-- The signed 8-bit field that carries an integer (R57). -/
def field8 (n : Int) : Byte := BitVec.ofInt 8 n

/-- The payload word that carries an element (R59). -/
def payloadWord (n : Int) : Word := BitVec.ofInt 32 n

/-- The words of a well-formed request. -/
def encode : Instr → List Word
  | .get row col => [mkWord 0x1 (field8 row) (field8 col) 0]
  | .set row col v => [mkWord 0x2 (field8 row) (field8 col) (field8 v)]
  | .del row col => [mkWord 0x3 (field8 row) (field8 col) 0]
  | .fill v => [mkWord 0x4 0 0 (field8 v)]
  | .ldbm (.header r c) => [mkWord 0x5 (BitVec.ofFin r) (BitVec.ofFin c) 0]
  | .ldbm (.matrix m) =>
    mkWord 0x5 (BitVec.ofNat 8 m.length) (BitVec.ofNat 8 (colCount m)) 0 :: m.flatten.map payloadWord
  | .flush => [mkWord 0x6 0 0 0]
  | .encsys osc => [mkWord 0x8 (if osc then 0x01 else 0x00) 0 0]
  | .encblk mode => [mkWord 0x9 (field8 mode) 0 0]
  | .encbrt level => [mkWord 0xA (field8 level) 0 0]
  | .setblk mode => [mkWord 0xB (field8 mode) 0 0]
  | .setbrt level => [mkWord 0xC (field8 level) 0 0]

/-! ### The host's table words -/

/-- The first request word of a table row's bits: bit 0 is the word's bit 0, and the bits from `nbits` up
are 0. -/
def tableWord (nbits w : Nat) : Word := BitVec.ofNat 32 (w % 2 ^ nbits)

/-- The instruction the decoder reads from a table row's word. -/
def decodeTableWord (nbits w : Nat) : Option Instr := (decode (tableWord nbits w)).toOption

end Sys2Proof
end

