-- ==== Sys2Proof/Machine/Operands.lean ====
section
/-! DEFINITION. Operand forms and the checks on them: coordinates, bit values and their Boolean form, blink
modes and their names, brightness levels, and bulk-load matrices (R11, R74, R76, R77, R82, R84, R85). -/

namespace Sys2Proof.Machine

/-! ### Booleans and blink-mode names -/

/-- A Boolean operand is the integer 1 or 0 before any check (R11). -/
def boolOperand (b : Bool) : Int := if b then 1 else 0

/-- The names of the blink modes (R74). -/
inductive BlinkMode where
  | off
  | hz2
  | hz1
  | halfHz
deriving DecidableEq, Repr

/-- The number of a named blink mode: OFF 0, 2HZ 1, 1HZ 2, HALF_HZ 3 (R74). -/
def BlinkMode.number : BlinkMode → Int
  | .off => 0
  | .hz2 => 1
  | .hz1 => 2
  | .halfHz => 3

/-! ### The checks -/

/-- The coordinate names a cell: `0 <= row < 16 and 0 <= col < 8` (R77). -/
def inRange (row col : Int) : Bool := decide (0 ≤ row ∧ row < 16 ∧ 0 ≤ col ∧ col < 8)

/-- The value is a bit (R77). -/
def isBit (v : Int) : Bool := decide (v = 0 ∨ v = 1)

/-- The blink mode is one of the four (R76). -/
def validBlk (mode : Int) : Bool := decide (0 ≤ mode ∧ mode ≤ 3)

/-- The brightness level is in [0, 15] (R76). -/
def validBrt (level : Int) : Bool := decide (0 ≤ level ∧ level ≤ 15)

/-! ### Cells of a row byte -/

/-- The row an in-range row operand names; used only after `inRange` (R77). -/
def rowIndex (row : Int) : Fin 16 := Fin.ofNat 16 row.toNat

/-- `zext_8` of a bit value; used only after `isBit` (R11). -/
def bitByte (v : Int) : Byte := BitVec.ofNat 8 v.toNat

/-- The cell in column `col` of a row byte, as a byte: `(row >> col) & 1` (R35, R78). -/
def cellByte (rowByte : Byte) (col : Int) : Byte := (rowByte >>> col.toNat) &&& 0x01

/-- The row byte with the cell in column `col` set to `v`: `(old & ~(1 << col)) | (v << col)` (R79). -/
def withCell (old : Byte) (col v : Int) : Byte :=
  (old &&& ~~~(0x01#8 <<< col.toNat)) ||| (bitByte v <<< col.toNat)

/-! ### Bulk-load matrices -/

/-- The 128 coordinate pairs in row-major order (R82). -/
def cellEnum : List (Nat × Nat) := (List.range 128).map fun k => (k / 8, k % 8)

/-- `M[i][j]`; the default is never read where the matrix has the shape of R84. -/
def element (m : List (List Int)) (i j : Nat) : Int := (m.getD i []).getD j 0

/-- The matrix is 16 by 8 (R84). -/
def isShape (m : List (List Int)) : Bool :=
  decide (m.length = 16) && m.all fun row => decide (row.length = 8)

/-- Every element is a bit (R89, over the enumeration of R82). -/
def allBits (m : List (List Int)) : Bool := cellEnum.all fun cell => isBit (element m cell.1 cell.2)

/-- Row byte `r` of a checked matrix: the OR over the columns of `M[r][c] << c` (R85). -/
def rowsOf (m : List (List Int)) (r : Fin 16) : Byte :=
  (List.range 8).foldl (fun acc c => acc ||| (bitByte (element m r.val c) <<< c)) 0

end Sys2Proof.Machine
end

