-- ==== Sys2Proof/Machine/Memory.lean ====
section
/-! DEFINITION. The framebuffer space (R34): 16 byte-wide locations, addresses 0 to 15, held as a list of cells
in one canonical form. An unlisted location reads as its reset contents, 0x00 (R31, R123). -/

namespace Sys2Proof.Machine

/-- The framebuffer, sparse: addresses strictly rising, no entry 0x00, no address above 15 (`Memory.wf`). -/
abbrev Memory := List Host.Cell

namespace Memory

/-- What an unlisted location holds: the reset contents the spec gives (R123). -/
def unlisted : Byte := 0x00

/-- The byte at an address. -/
def read : Memory → Nat → Byte
  | [], _ => unlisted
  | (b, v) :: rest, a => if b = a then v else read rest a

/-- Put a cell in front of the first cell of a higher address. -/
def place (a : Nat) (v : Byte) : Memory → Memory
  | [] => [(a, v)]
  | (b, w) :: rest => if a < b then (a, v) :: (b, w) :: rest else (b, w) :: place a v rest

/-- Store a byte at a location that exists (R34), keeping the canonical form: storing what an unlisted location
holds removes the entry. -/
def write (m : Memory) (r : Fin 16) (v : Byte) : Memory :=
  let others := m.filter fun cell => cell.1 != r.val
  if v = unlisted then others else place r.val v others

/-- The addresses rise strictly from `low` on, stay inside the space, and no listed byte is 0x00. -/
def wfFrom (low : Nat) : Memory → Bool
  | [] => true
  | (a, v) :: rest =>
    decide (low ≤ a) && decide (a < Config.rows) && decide (v ≠ unlisted) && wfFrom (a + 1) rest

/-- The canonical form: equal framebuffers are equal lists. -/
def wf (m : Memory) : Bool := wfFrom 0 m

end Memory

end Sys2Proof.Machine
end

