-- ==== Sys2Proof/Machine/Encoder.lean ====
section
/-! DEFINITION. The command encoder as combinational functions (R63 to R65, R76). -/

namespace Sys2Proof.Machine

/-- System setup: `0x20 | oscillator_on` (R76). -/
def encSys (osc : Bool) : Byte := 0x20 ||| (if osc then 0x01 else 0x00)

/-- Blink: `0x81 | (mode << 1)` (R76). -/
def encBlk (mode : Fin 4) : Byte := 0x81 ||| (BitVec.ofNat 8 mode.val <<< 1)

/-- Brightness: `0xE0 | level` (R76). -/
def encBrt (level : Fin 16) : Byte := 0xE0 ||| BitVec.ofNat 8 level.val

/-- The blink mode a valid operand names; used only after `validBlk` (R76). -/
def blinkIndex (mode : Int) : Fin 4 := Fin.ofNat 4 mode.toNat

/-- The level a valid operand names; used only after `validBrt` (R76). -/
def levelIndex (level : Int) : Fin 16 := Fin.ofNat 16 level.toNat

/-- The three commands (R63). -/
inductive Command where
  | systemSetup
  | blink
  | brightness
deriving DecidableEq, Repr

/-- The command's selector stands in bits 7:5 of the byte: 001, 100 or 111 (R65). -/
def Command.selects (c : Command) (b : Byte) : Bool :=
  b.extractLsb' 5 3 == match c with
    | .systemSetup => 0b001#3
    | .blink => 0b100#3
    | .brightness => 0b111#3

/-- The bytes SLFB can send as a raw write (R64): the 2 system setups, the 4 blinks, the 16 brightnesses. -/
def isCommandByte (b : Byte) : Bool :=
  b == 0x20 || b == 0x21 || b == 0x81 || b == 0x83 || b == 0x85 || b == 0x87 || b.extractLsb' 4 4 == 0xE#4

end Sys2Proof.Machine
end

