-- ==== Sys2Proof/Machine/Transport.lean ====
section
/-! DEFINITION. The items SLFB sends to the transport port (R23, R43, R67), the items of a flush (R94) and of the
reset sequence (R124), and what the transport trace tells of the chip (R44, R45, R102, R128). -/

namespace Sys2Proof.Machine

/-- A pending transport write (R23, R43). -/
inductive TxItem where
  /-- `Raw(b)`: a raw command-byte write. -/
  | raw (b : Byte)
  /-- `Reg(a, b)`: a write of byte `b` to chip register `a`. -/
  | reg (a : BitVec 4) (b : Byte)
deriving DecidableEq, Repr

/-- The 13-bit record `{kind, addr, data}` on the port (R67). -/
def TxItem.record : TxItem → BitVec 13
  | .raw b => (0#1 : BitVec 1) ++ (0x0#4 : BitVec 4) ++ b
  | .reg a b => (1#1 : BitVec 1) ++ a ++ b

/-- The 16 rows in ascending address order (R94). -/
def allRows : List (Fin 16) := [0, 1, 2, 3, 4, 5, 6, 7, 8, 9, 10, 11, 12, 13, 14, 15]

/-- The register write that carries row `r` (R37, R94). -/
def rowItem (m : Memory) (r : Fin 16) : TxItem := .reg (BitVec.ofNat 4 r.val) (m.read r.val)

/-- The flush items of a framebuffer (R94). -/
def flushItems (m : Memory) : List TxItem := allRows.map (rowItem m)

/-- The 19 items of the reset sequence, over the framebuffer of all zeros (R124). -/
def resetSequence : List TxItem :=
  [.raw (encSys true)] ++ flushItems [] ++ [.raw (encBlk 0), .raw (encBrt 15)]

/-- The item carries what SLFB may send: a raw write carries a command byte of R64 (R38, R64). -/
def TxItem.legal : TxItem → Bool
  | .raw b => isCommandByte b
  | .reg _ _ => true

/-- A transport trace: the items emitted, each with its answer, in emission order (R44). -/
abbrev Trace := List (TxItem × Answer)

/-! ### What a trace tells of the chip

The chip is outside SLFB and no state of it is held (R29); these are views of the items emitted since the last reset,
before which nothing is known of the chip (R128). `none` is unknown: any value (R45, U1). -/

/-- What one emitted item does to what is known of chip register `a` (R45, R102, U1): a write answered `ok` arrived, and
one answered `fail` leaves its register unknown and, with it, those of the later items, which are not sent. Register
writes are queued in ascending order up to register 15 (R94, R124), so the later items are those of the registers above;
after a failed system setup, the first item of the reset sequence, they are those of all 16. -/
def chipAfter (a : BitVec 4) (known : Option Byte) : TxItem × Answer → Option Byte
  | (.reg b v, .ok) => if b = a then some v else known
  | (.reg b _, .fail) => if b.toNat ≤ a.toNat then none else known
  | (.raw _, .ok) => known
  | (.raw b, .fail) => if Command.systemSetup.selects b then none else known

/-- What is known of chip register `a` after the items emitted since reset (R37, R45, R49, R128). -/
def chipRegister (sinceReset : Trace) (a : BitVec 4) : Option Byte := sinceReset.foldl (chipAfter a) none

/-- What one emitted item does to what is known of the last byte of command `c` that reached the chip: after a raw write
answered `fail` the whole configuration is unknown (R45, U1). The raw writes that a failed register write keeps from being
sent are those at the end of the reset sequence, whose commands are unknown since reset. -/
def commandAfter (c : Command) (known : Option Byte) : TxItem × Answer → Option Byte
  | (.raw b, .ok) => if c.selects b then some b else known
  | (.raw _, .fail) => none
  | (.reg _ _, _) => known

/-- What is known of the chip's configuration by command `c` after the items emitted since reset (R38, R45, R128). -/
def chipCommand (sinceReset : Trace) (c : Command) : Option Byte := sinceReset.foldl (commandAfter c) none

end Sys2Proof.Machine
end

