-- ==== Sys2Proof/Machine/State.lean ====
section
/-! DEFINITION. The state of SLFB (R31), with the ports to the host and to the transport beside it, and its value
after reset. -/

namespace Sys2Proof.Machine

/-- The lifecycle mode (R20). -/
inductive Mode where
  /-- The reset sequence is running and no request is accepted. -/
  | init
  /-- The sequence completed; requests are served. -/
  | run
  /-- A write of the sequence failed; only reset leaves this mode (R109). -/
  | dead
deriving DecidableEq, Repr

/-- The bulk-load collector `ld` (R25). -/
inductive Collector where
  | none
  /-- The next words on the request port are payload; `elems` are the elements received so far. -/
  | collecting (rowCount colCount : Fin 256) (elems : List Int)
deriving DecidableEq, Repr

/-- Why a step can stop with a fault: never. SLFB's semantics are total on words and terms, its failures are
statuses in `rsp_status`, and the block goes on after them (R110, R113), so the type has no constructor and no
meaning can raise one. -/
inductive Fault where
deriving DecidableEq, Repr

/-- Why a step can refuse. -/
inductive Refusal where
  /-- Raised by an arm of `exec` whose instruction has no meaning yet; safe. No arm raises it. -/
  | notModelled (mnemonic : String)
deriving DecidableEq, Repr

/-- The whole state. The first six fields are the record of R31; the others are the model's own, the ports'
side of R33, R44, R115 and R129 (log entries 1 to 4). -/
structure State where
  /-- The framebuffer `buf` (R15, R34). -/
  buf : Memory
  /-- The lifecycle mode (R20). -/
  mode : Mode
  /-- The status of the last completed request (R21, R105). -/
  rspStatus : BitVec 4
  /-- The datum of the last completed request (R21, R66). -/
  rspData : Byte
  /-- The transmit queue, the next item first (R23). -/
  txq : List TxItem
  /-- The bulk-load collector `ld` (R25). -/
  ld : Collector
  /-- REQUEST PORT: the words the host has still to get taken, the presented one first (R33, R131, R140). -/
  words : List Word
  /-- TRANSPORT PORT, in: the replies the environment has lined up, one a transport step; `none` is a step in
  which the item is not answered yet (R44, R138). -/
  replies : List (Option Answer)
  /-- How many replies have been drawn from `Config.transportReply`, after `replies` ran out. -/
  draws : Nat
  /-- TRANSPORT PORT, out: the items emitted before the last reset, with their answers (R44). -/
  traceBefore : Trace
  /-- TRANSPORT PORT, out: those emitted since the last reset. -/
  trace : Trace
  /-- RESET INPUT: one sample a step, the next first; not asserted where the list has ended (R115, R127). -/
  resetIn : List Bool
deriving DecidableEq, Repr

/-- SLFB right after reset (R31, R123, R124), with nothing on its ports. -/
def State.reset : State where
  buf := []
  mode := .init
  rspStatus := 0
  rspData := 0x00
  txq := resetSequence
  ld := .none
  words := []
  replies := []
  draws := 0
  traceBefore := []
  trace := []
  resetIn := []

end Sys2Proof.Machine
end

