-- ==== Sys2Proof/Machine/Ops.lean ====
section
/-! DEFINITION. The shared operations over State: what the host observes (R20, R26, R27), the framebuffer accesses
(R34), the response (R12), a failure, which is SLFB's whole exception mechanism (R12, R110), loading the transmit
queue (R93), the transport step (R101) and reset (R127). -/

namespace Sys2Proof.Machine

/-! ### What the host observes (R20, R26, R27) -/

/-- The 2-bit encoding of the mode (R20); 0b11 is never held. -/
def Mode.code : Mode → BitVec 2
  | .init => 0b00
  | .run => 0b01
  | .dead => 0b10

/-- `busy = (mode = INIT) or (txq != [])` (R26). -/
def State.busy (s : State) : Bool := s.mode == .init || !s.txq.isEmpty

/-- `ready = (mode = RUN) and (txq = [])` (R27). -/
def State.ready (s : State) : Bool := s.mode == .run && s.txq.isEmpty

/-- `dead = (mode = DEAD)` (R27). -/
def State.dead (s : State) : Bool := s.mode == .dead

/-- The transport trace (R44): every item emitted, before the last reset and since. -/
def State.transportTrace (s : State) : Trace := s.traceBefore ++ s.trace

/-- Everything the host observes (R27); it reads the framebuffer only through GET, `txq` and `ld` not at all. -/
structure HostView where
  busy : Bool
  ready : Bool
  dead : Bool
  rspStatus : BitVec 4
  rspData : Byte
  trace : Trace
deriving DecidableEq, Repr

/-- The host's view of a state (R27). -/
def State.observe (s : State) : HostView where
  busy := s.busy
  ready := s.ready
  dead := s.dead
  rspStatus := s.rspStatus
  rspData := s.rspData
  trace := s.transportTrace

/-! ### The framebuffer (R34, R35) -/

/-- `MemRead(r, 1)`. -/
def memRead (r : Fin 16) (s : State) : Byte := s.buf.read r.val

/-- `MemWrite(r, 1, v)`. -/
def memWrite (r : Fin 16) (v : Byte) (s : State) : State := { s with buf := s.buf.write r v }

/-- `MemWrite(r, 1, v r)` for every row, in one step (R41, R83). -/
def writeRows (v : Fin 16 → Byte) (s : State) : State :=
  allRows.foldl (fun t r => memWrite r (v r) t) s

/-- `bit(r, c)`, the cell at row `r`, column `c` (R12, R35). -/
def State.cell (s : State) (r : Fin 16) (c : Fin 8) : Bool := (memRead r s).getLsbD c.val

/-! ### Completing and failing -/

/-- `respond(status, data)` (R12). -/
def respond (status : Status) (data : Byte) (s : State) : State :=
  { s with rspStatus := status.code, rspData := data }

/-- `raise <Status>`: the failure's status with datum 0x00 and no other change (R12, R107, R110). A failure is no
trap: it saves nothing, changes no mode and transfers no control, so there is no return from it (R110, R111). -/
def raise (status : Status) (s : State) : State := respond status 0x00 s

/-- `deadGuard()`: in DEAD mode the request ends with InitializationError, else it goes on as `goOn` (R77). -/
def deadGuard (s : State) (goOn : State) : State :=
  if s.mode = .dead then raise .initializationError s else goOn

/-- Load the transmit queue; the response is written when it empties (R93). -/
def queueItems (items : List TxItem) (s : State) : State := { s with txq := items }

/-! ### The transport step (R101) -/

/-- `TxStep(ans)` of R101 on a queue that is not empty; nothing on an empty one, where it is not enabled. -/
def txStep (ans : Answer) (s : State) : State :=
  match s.txq with
  | [] => s
  | item :: rest =>
    let s := { s with trace := s.trace ++ [(item, ans)] }
    match ans with
    | .ok =>
      let s := { s with txq := rest }
      if rest.isEmpty then
        if s.mode = .init then { s with mode := .run } else respond .ok 0x00 s
      else s
    | .fail =>
      let s := { s with txq := [] }
      if s.mode = .init then raise .initializationError { s with mode := .dead }
      else raise .transportError s

/-- The reply the transport gives now: the next one lined up, else the free value (R44, R100; log entry 2). -/
def State.reply (s : State) : Option Answer :=
  match s.replies with
  | r :: _ => r
  | [] => Config.transportReply s.draws

/-- The transport port with that reply taken. -/
def takeReply (s : State) : State :=
  match s.replies with
  | _ :: rest => { s with replies := rest }
  | [] => { s with draws := s.draws + 1 }

/-- One step of a busy block: the transport step where the item is answered; where it is not, the block stays as
it is, still busy (R44, R138). -/
def pollTransport (s : State) : State :=
  match s.reply with
  | some ans => txStep ans (takeReply s)
  | none => takeReply s

/-! ### Reset (R127) -/

/-- Reset applied in any state: every piece of the block's state takes its reset value in one step, and whatever
was in progress is abandoned (R115, R127). The ports are the environment's and stay as they are; what was emitted so far
is from here on what was emitted before the last reset (log entries 3 and 4). -/
def applyReset (s : State) : State :=
  { s with
    buf := []
    mode := .init
    rspStatus := Status.ok.code
    rspData := 0x00
    txq := resetSequence
    ld := .none
    traceBefore := s.transportTrace
    trace := [] }

/-- Is reset asserted in this step? -/
def State.resetAsserted (s : State) : Bool := s.resetIn.headD false

/-- The reset input with this step's sample taken. -/
def takeResetSample (s : State) : State := { s with resetIn := s.resetIn.tail }

end Sys2Proof.Machine
end

