-- ==== Sys2Proof/Machine/BulkRequests.lean ====
section
/-! DEFINITION. FILL and LDBM (R83 to R92). CLR is FILL 0 and has no meaning of its own (R69, R87). -/

namespace Sys2Proof.Machine

open Host (Outcome)

/-- FILL (R86). -/
def execFill (v : Int) (s : State) : Outcome State Fault Refusal :=
  .next <| deadGuard s <|
    if isBit v then respond .ok 0x00 (writeRows (fun _ => if v = 1 then 0xFF else 0x00) s)
    else raise .invalidArgument s

/-- `LDBM(M)` (R89): the checks in the order of R88, then all 16 rows in one step. -/
def loadBitmap (m : List (List Int)) (s : State) : State :=
  deadGuard s <|
    if !isShape m then raise .shapeMismatch s
    else if !allBits m then raise .invalidArgument s
    else respond .ok 0x00 (writeRows (rowsOf m) s)

/-- The header step of R90: a header whose payload is empty performs LDBM at once, any other one starts the
collector and writes no response, in DEAD mode too (R109). -/
def acceptHeader (rowCount colCount : Fin 256) (s : State) : State :=
  if rowCount.val * colCount.val = 0 then loadBitmap (List.replicate rowCount.val []) s
  else { s with ld := .collecting rowCount colCount [] }

/-- LDBM in its two forms: the request term (R89) and the binary header (R90). -/
def execLdbm (operand : LdbmOperand) (s : State) : Outcome State Fault Refusal :=
  match operand with
  | .matrix m => .next (loadBitmap m s)
  | .header rowCount colCount => .next (acceptHeader rowCount colCount s)

end Sys2Proof.Machine
end

