-- ==== Sys2Proof/Machine/CellRequests.lean ====
section
/-! DEFINITION. GET, SET and DEL (R77 to R81). -/

namespace Sys2Proof.Machine

open Host (Outcome)

/-- GET (R78). -/
def execGet (row col : Int) (s : State) : Outcome State Fault Refusal :=
  .next <| deadGuard s <|
    if inRange row col then respond .ok (cellByte (memRead (rowIndex row) s) col) s
    else raise .outOfRange s

/-- SET (R79): the coordinate is checked before the value (R108), both before the write. -/
def execSet (row col v : Int) (s : State) : Outcome State Fault Refusal :=
  .next <| deadGuard s <|
    if !inRange row col then raise .outOfRange s
    else if !isBit v then raise .invalidArgument s
    else respond .ok 0x00 (memWrite (rowIndex row) (withCell (memRead (rowIndex row) s) col v) s)

/-- DEL (R80): no range check; it fails on every coordinate. -/
def execDel (_row _col : Int) (s : State) : Outcome State Fault Refusal :=
  .next (deadGuard s (raise .unsupportedOperation s))

end Sys2Proof.Machine
end

