-- ==== Sys2Proof/Machine/EncoderRequests.lean ====
section
/-! DEFINITION. ENCSYS, ENCBLK and ENCBRT (R70 to R75): pure requests that read no state, so they answer in RUN and
in DEAD mode alike. -/

namespace Sys2Proof.Machine

open Host (Outcome)

/-- ENCSYS (R70). -/
def execEncsys (osc : Bool) (s : State) : Outcome State Fault Refusal :=
  .next (respond .ok (encSys osc) s)

/-- ENCBLK (R71). -/
def execEncblk (mode : Int) (s : State) : Outcome State Fault Refusal :=
  .next (if validBlk mode then respond .ok (encBlk (blinkIndex mode)) s else raise .invalidArgument s)

/-- ENCBRT (R72). -/
def execEncbrt (level : Int) (s : State) : Outcome State Fault Refusal :=
  .next (if validBrt level then respond .ok (encBrt (levelIndex level)) s else raise .invalidArgument s)

end Sys2Proof.Machine
end

