-- ==== Sys2Proof/Machine/TransportRequests.lean ====
section
/-! DEFINITION. FLUSH, SETBLK and SETBRT (R93 to R98): they load the transmit queue and write no response; the
transport step that empties the queue writes it (R101). -/

namespace Sys2Proof.Machine

open Host (Outcome)

/-- FLUSH (R95): the queue takes the snapshot of the framebuffer. -/
def execFlush (s : State) : Outcome State Fault Refusal :=
  .next (deadGuard s (queueItems (flushItems s.buf) s))

/-- SETBLK (R97): validated before anything is queued (R96). -/
def execSetblk (mode : Int) (s : State) : Outcome State Fault Refusal :=
  .next <| deadGuard s <|
    if validBlk mode then queueItems [.raw (encBlk (blinkIndex mode))] s else raise .invalidArgument s

/-- SETBRT (R98): validated before anything is queued (R96). -/
def execSetbrt (level : Int) (s : State) : Outcome State Fault Refusal :=
  .next <| deadGuard s <|
    if validBrt level then queueItems [.raw (encBrt (levelIndex level))] s else raise .invalidArgument s

end Sys2Proof.Machine
end

