-- ==== Sys2Proof/Machine/Dispatch.lean ====
section
/-! DEFINITION. The meaning of every request, one arm a constructor. -/

namespace Sys2Proof.Machine

def exec (i : Instr) (s : State) : Host.Outcome State Fault Refusal :=
  match i with
  | .get row col => Sys2Proof.Machine.execGet row col s
  | .set row col v => Sys2Proof.Machine.execSet row col v s
  | .del row col => Sys2Proof.Machine.execDel row col s
  | .fill v => Sys2Proof.Machine.execFill v s
  | .ldbm operand => Sys2Proof.Machine.execLdbm operand s
  | .flush => Sys2Proof.Machine.execFlush s
  | .encsys osc => Sys2Proof.Machine.execEncsys osc s
  | .encblk mode => Sys2Proof.Machine.execEncblk mode s
  | .encbrt level => Sys2Proof.Machine.execEncbrt level s
  | .setblk mode => Sys2Proof.Machine.execSetblk mode s
  | .setbrt level => Sys2Proof.Machine.execSetbrt level s

end Sys2Proof.Machine
end

