-- ==== Sys2Proof/Machine/Request.lean ====
section
/-! DEFINITION. The request step (R104) and the payload step (R90): taking one word from the request port; and how a
word comes to stand there. -/

namespace Sys2Proof.Machine

open Host (Outcome)

/-- The payload step of R90: the word is the next element; the last one performs LDBM with the matrix collected. -/
def payloadStep (rowCount colCount : Fin 256) (elems : List Int) (w : Word) (s : State) :
    Outcome State Fault Refusal :=
  let elems' := elems ++ [sint32 w]
  if elems'.length = rowCount.val * colCount.val then
    exec (.ldbm (.matrix (payloadMatrix rowCount.val colCount.val elems'))) { s with ld := .none }
  else .next { s with ld := .collecting rowCount colCount elems' }

/-- `ReqStep(w)` of R104: a payload word while the collector runs, else a request or an illegal word. -/
def reqStep (w : Word) (s : State) : Outcome State Fault Refusal :=
  match s.ld with
  | .collecting rowCount colCount elems => payloadStep rowCount colCount elems w s
  | .none =>
    match decode w with
    | .ok i => exec i s
    | .error _ => .next (raise .illegalRequest s)

/-- The request port of a block that is not busy: the presented word is taken; with none the block idles. -/
def serveHost (s : State) : Outcome State Fault Refusal :=
  match s.words with
  | [] => .next s
  | w :: rest => reqStep w { s with words := rest }

/-- One step without reset: at most one of the two kinds of step is enabled (R99). In INIT mode with an empty queue
neither is, and the block stays as it is; that state is never reached (R99). -/
def blockStep (s : State) : Outcome State Fault Refusal :=
  if !s.txq.isEmpty then .next (pollTransport s)
  else if s.mode = .init then .next s
  else serveHost s

/-- The reset input with its next sample not asserted. -/
def releaseReset : List Bool → List Bool
  | true :: rest => false :: rest
  | samples => samples

/-- The state in which the block takes the word `w` as a request in its very next step: reset released, the reset
sequence over, nothing in flight, no payload awaited, and `w` presented in front of the host's other words. -/
def presentWord (w : Word) (s : State) : State :=
  { s with
    mode := if s.mode = .init then .run else s.mode
    txq := []
    ld := .none
    words := w :: s.words
    resetIn := releaseReset s.resetIn }

end Sys2Proof.Machine
end

