-- ==== Sys2Proof/Machine/Step.lean ====
section
/-! DEFINITION. One step of SLFB: reset wins over everything (R115), else the transport step or the request step, of
which at most one is enabled (R99). -/

namespace Sys2Proof.Machine

/-- One step. Every step takes one sample of the reset input. -/
def step (s : State) : Host.Outcome State Fault Refusal :=
  if s.resetAsserted then .next (applyReset (takeResetSample s)) else blockStep (takeResetSample s)

/-- The state with a table row's word presented on the request port, so that the next step runs it (log entry 5). -/
def State.withFetchWord (s : State) (nbits w : Nat) : State := presentWord (tableWord nbits w) s

end Sys2Proof.Machine
end

