-- ==== Sys2Proof/Machine/Assembler.lean ====
section
/-! DEFINITION. The assembler of R68 on lines already read into mnemonic and operands: which words a line gives,
which lines it refuses, and the expansions of the pseudo-instructions (R69, R87). -/

namespace Sys2Proof.Machine

/-- An operand a line may name (R68): a number, one of the four blink-mode names, `false`, `true`, or, for LOAD,
a matrix. -/
inductive AsmArg where
  | num (n : Int)
  | blink (m : BlinkMode)
  | bool (b : Bool)
  | matrix (m : List (List Int))
deriving DecidableEq, Repr

/-- The first word of a line (R68): the eleven mnemonics, `.word`, and the pseudo-instructions CLR and LOAD. -/
inductive AsmOp where
  | get | set | del | fill | ldbm | flush | encsys | encblk | encbrt | setblk | setbrt
  | word | clr | load
deriving DecidableEq, Repr

/-- One line. -/
structure AsmLine where
  op : AsmOp
  args : List AsmArg
deriving DecidableEq, Repr

/-- The words of a request whose operands fit; an operand that does not fit is an assembler error (R68). -/
def assembleInstr (i : Instr) : Option (List Word) := if i.wf then some (encode i) else none

/-- A count operand of LDBM: 0 to 255 (R68). -/
def asmCount (n : Int) : Option (Fin 256) :=
  if 0 ≤ n ∧ n ≤ 255 then some (Fin.ofNat 256 n.toNat) else none

/-- An LDBM line: the header alone; its payload stands on `.word` lines (R68). -/
def assembleHeader (rowCount colCount : Int) : Option (List Word) :=
  match asmCount rowCount, asmCount colCount with
  | some r, some c => assembleInstr (.ldbm (.header r c))
  | _, _ => none

/-- An oscillator operand: 0, 1, false or true (R68). -/
def asmOsc : AsmArg → Option Bool
  | .num 0 => some false
  | .num 1 => some true
  | .bool b => some b
  | _ => none

/-- A blink-mode operand: a number or a name (R68, R74). -/
def asmBlink : AsmArg → Option Int
  | .num n => some n
  | .blink m => some m.number
  | _ => none

/-- The words of one line, or `none` where the assembler refuses it (R68). -/
def assembleLine (line : AsmLine) : Option (List Word) :=
  match line.op, line.args with
  | .get, [.num row, .num col] => assembleInstr (.get row col)
  | .set, [.num row, .num col, .num v] => assembleInstr (.set row col v)
  | .del, [.num row, .num col] => assembleInstr (.del row col)
  | .fill, [.num v] => assembleInstr (.fill v)
  | .ldbm, [.num r, .num c] => assembleHeader r c
  | .flush, [] => assembleInstr .flush
  | .encsys, [osc] => (asmOsc osc).bind fun b => assembleInstr (.encsys b)
  | .encblk, [mode] => (asmBlink mode).bind fun n => assembleInstr (.encblk n)
  | .encbrt, [.num level] => assembleInstr (.encbrt level)
  | .setblk, [mode] => (asmBlink mode).bind fun n => assembleInstr (.setblk n)
  | .setbrt, [.num level] => assembleInstr (.setbrt level)
  | .word, [.num n] => if fitsSint32 n then some [payloadWord n] else none
  | .clr, [] => assembleInstr (.fill 0)
  | .load, [.matrix m] => assembleInstr (.ldbm (.matrix m))
  | _, _ => none

/-- The words of a program, line after line; one refused line refuses the program. -/
def assemble : List AsmLine → Option (List Word)
  | [] => some []
  | line :: rest => (assembleLine line).bind fun ws => (assemble rest).map fun more => ws ++ more

end Sys2Proof.Machine
end

