-- ==== Sys2Proof/Safety.lean ====
section
/-! DEFINITION. What counts as a sound state of SLFB and as the end of a run, in the terms claims use. -/

namespace Sys2Proof.Machine

/-- What is true of every state a run from reset reaches (R16, R20, R23, R25, R37, R64, R105, R126, R134). -/
structure State.Inv (s : State) : Prop where
  /-- The framebuffer is in canonical form, so every row is one of 16 and eight bits wide (R15, R16). -/
  memory : s.buf.wf = true
  /-- The queue holds at most 19 items (R23). -/
  queueBound : s.txq.length ≤ 19
  /-- In INIT mode what is queued is what is left of the reset sequence, and something is (R20, R99, R124). -/
  initQueue : s.mode = .init → s.txq ≠ [] ∧ s.txq <:+ resetSequence
  /-- In INIT mode everything else still has its reset value (R31). -/
  initRest : s.mode = .init → s.buf = [] ∧ s.ld = .none ∧ s.rspStatus = 0 ∧ s.rspData = 0
  /-- In DEAD mode nothing is queued and the framebuffer is all zero (R101, R109, R126). -/
  deadRest : s.mode = .dead → s.txq = [] ∧ s.buf = []
  /-- A status code of R105: 8 to 15 are never written. -/
  status : s.rspStatus.toNat ≤ 7
  /-- While payload is awaited, some is missing and nothing is in flight (R25, R90). -/
  collector : ∀ r c e, s.ld = .collecting r c e → e.length < r.val * c.val ∧ s.txq = []
  /-- A queued register write carries its row as the framebuffer still holds it (R37, R134). -/
  snapshot : ∀ a b, TxItem.reg a b ∈ s.txq → b = s.buf.read a.toNat
  /-- A queued raw write carries a command byte (R38, R64). -/
  queueLegal : ∀ item ∈ s.txq, item.legal = true
  /-- So did every one emitted so far (R64). -/
  traceLegal : ∀ event ∈ s.transportTrace, event.1.legal = true

/-- A state of a block between two requests, no reset asserted now or later: the states from which the
transaction rules R102 and R103 speak. -/
structure State.Idle (s : State) : Prop where
  run : s.mode = .run
  queue : s.txq = []
  collector : s.ld = .none
  noReset : s.resetIn = []

/-- The block takes the word `w` as the first word of a request in its next step: reset not asserted, not busy
(R26, R131), no payload awaited (R132), and `w` presented in front of `ws`. -/
structure State.Presents (s : State) (w : Word) (ws : List Word) : Prop where
  noReset : s.resetAsserted = false
  notBusy : s.busy = false
  collector : s.ld = .none
  presented : s.words = w :: ws

/-- The block is in the middle of sending: reset not asserted, `item` in flight in front of `rest`. -/
structure State.Sends (s : State) (item : TxItem) (rest : List TxItem) : Prop where
  noReset : s.resetAsserted = false
  queued : s.txq = item :: rest

/-- `n` steps of the machine of `core`, at its own types. -/
def run (n : Nat) (s : State) : Host.Outcome State Fault Refusal := Host.Core.run core n s

/-- Requests taken one after the other at the term level (R104), each on the state the one before left. -/
def execAll : List Instr → State → Host.Outcome State Fault Refusal
  | [], s => .next s
  | i :: rest, s =>
    match exec i s with
    | .next t => execAll rest t
    | .fault r => .fault r
    | .refused r => .refused r

/-- The end of a run of the host's words (R140): all of them taken, nothing queued, no payload awaited. -/
def State.runEnded (s : State) : Bool := s.words.isEmpty && s.txq.isEmpty && s.ld == .none

end Sys2Proof.Machine
end

