-- ==== Sys2Proof/Certificates/Slice0/Obligations.lean ====
section
/-! DEFINITION. The statements for the provers. Each docstring names the rule of the spec the statement formalises.
The helpers of namespace `Claims` are written from the spec's tables, not from the model's functions. -/

namespace Sys2Proof.Claims

open Sys2Proof.Machine

/-- `{OP, A, B, V, RSV}` (R54). -/
def fieldsWord (op : BitVec 4) (a b v : Byte) (rsv : BitVec 4) : Word := op ++ a ++ b ++ v ++ rsv

/-- The request term a word's fields spell, or none: R62, read off the table of R56. -/
def spelled (op : BitVec 4) (a b v : Byte) (rsv : BitVec 4) : Option Instr :=
  if rsv ≠ 0 then none
  else if op = 0x1 ∧ v = 0 then some (.get a.toInt b.toInt)
  else if op = 0x2 then some (.set a.toInt b.toInt v.toInt)
  else if op = 0x3 ∧ v = 0 then some (.del a.toInt b.toInt)
  else if op = 0x4 ∧ a = 0 ∧ b = 0 then some (.fill v.toInt)
  else if op = 0x5 ∧ v = 0 then some (.ldbm (.header a.toFin b.toFin))
  else if op = 0x6 ∧ a = 0 ∧ b = 0 ∧ v = 0 then some .flush
  else if op = 0x8 ∧ a = 0 ∧ b = 0 ∧ v = 0 then some (.encsys false)
  else if op = 0x8 ∧ a = 1 ∧ b = 0 ∧ v = 0 then some (.encsys true)
  else if op = 0x9 ∧ b = 0 ∧ v = 0 then some (.encblk a.toInt)
  else if op = 0xA ∧ b = 0 ∧ v = 0 then some (.encbrt a.toInt)
  else if op = 0xB ∧ b = 0 ∧ v = 0 then some (.setblk a.toInt)
  else if op = 0xC ∧ b = 0 ∧ v = 0 then some (.setbrt a.toInt)
  else none

/-- The fields of an illegal word, clause by clause as R61 lists them. -/
def illegalFields (op : BitVec 4) (a b v : Byte) (rsv : BitVec 4) : Prop :=
  op ∈ [0x0#4, 0x7#4, 0xD#4, 0xE#4, 0xF#4] ∨ rsv ≠ 0 ∨
  (op ∈ [0x1#4, 0x3#4, 0x5#4] ∧ v ≠ 0) ∨
  (op = 0x4 ∧ (a ≠ 0 ∨ b ≠ 0)) ∨
  (op = 0x6 ∧ (a ≠ 0 ∨ b ≠ 0 ∨ v ≠ 0)) ∨
  (op ∈ [0x8#4, 0x9#4, 0xA#4, 0xB#4, 0xC#4] ∧ (b ≠ 0 ∨ v ≠ 0)) ∨
  (op = 0x8 ∧ a ≠ 0 ∧ a ≠ 1)

/-- The coordinate is one of the 16 by 8 (R77). -/
def coordinate (row col : Int) : Prop := 0 ≤ row ∧ row < 16 ∧ 0 ≤ col ∧ col < 8

/-- The matrix has 16 rows of 8 elements (R84). -/
def sixteenByEight (m : List (List Int)) : Prop := m.length = 16 ∧ ∀ row ∈ m, row.length = 8

/-- Every element of a 16 by 8 matrix is 0 or 1 (R89). -/
def onlyBits (m : List (List Int)) : Prop := ∀ row ∈ m, ∀ v ∈ row, v = 0 ∨ v = 1

/-- The requests that read or write the framebuffer or use the transport (R109). -/
def needsDevice : Instr → Bool
  | .get _ _ | .set _ _ _ | .del _ _ | .fill _ | .ldbm (.matrix _) | .flush | .setblk _ | .setbrt _ => true
  | .ldbm (.header _ _) | .encsys _ | .encblk _ | .encbrt _ => false

/-- The requests that write the framebuffer (R17); LDBM in the form that carries its matrix. -/
def writesFramebuffer : Instr → Bool
  | .set _ _ _ | .fill _ | .ldbm (.matrix _) => true
  | .get _ _ | .del _ _ | .ldbm (.header _ _) | .flush | .encsys _ | .encblk _ | .encbrt _ | .setblk _
  | .setbrt _ => false

/-- The requests that use the transport (R93). -/
def usesTransport : Instr → Bool
  | .flush | .setblk _ | .setbrt _ => true
  | .get _ _ | .set _ _ _ | .del _ _ | .fill _ | .ldbm _ | .encsys _ | .encblk _ | .encbrt _ => false

/-- The requests that write nothing but the response (R40, R42, R73, R80). -/
def onlyAnswers : Instr → Bool
  | .get _ _ | .del _ _ | .encsys _ | .encblk _ | .encbrt _ => true
  | .set _ _ _ | .fill _ | .ldbm _ | .flush | .setblk _ | .setbrt _ => false

/-- The requests that may end the step that takes them with no response written: the next transport steps or payload words
bring it (R90, R93, R104). -/
def mayDefer : Instr → Bool
  | .ldbm (.header _ _) | .flush | .setblk _ | .setbrt _ => true
  | .get _ _ | .set _ _ _ | .del _ _ | .fill _ | .ldbm (.matrix _) | .encsys _ | .encblk _ | .encbrt _ => false

/-- The statuses a request can write in the step that takes it: its row of the table of R106, less the statuses
that a transport step or the last payload word writes later. -/
def statusesOf : Instr → List (BitVec 4)
  | .encsys _ => [0]
  | .encblk _ | .encbrt _ => [0, 2]
  | .get _ _ => [0, 1, 6]
  | .set _ _ _ => [0, 1, 2, 6]
  | .del _ _ => [4, 6]
  | .fill _ => [0, 2, 6]
  | .ldbm (.matrix _) => [0, 2, 3, 6]
  | .ldbm (.header _ _) => [3, 6]
  | .flush => [6]
  | .setblk _ | .setbrt _ => [2, 6]

/-- The integer does not fit a signed 8-bit field (R68). -/
def outside8 (n : Int) : Prop := n < -128 ∨ 127 < n

/-- The integer is no LDBM count (R68). -/
def outsideCount (n : Int) : Prop := n < 0 ∨ 255 < n

/-- The integer does not fit a payload word (R11, R68). -/
def outside32 (n : Int) : Prop := n < -2147483648 ∨ 2147483647 < n

/-- The state with a response written (R12, R21) and no other change. -/
def answer (s : State) (status : BitVec 4) (data : Byte) : State := { s with rspStatus := status, rspData := data }

/-- The flush items of a framebuffer in ascending address order (R94). -/
def itemsOf (m : Memory) : List TxItem := (List.range 16).map fun i => .reg (BitVec.ofNat 4 i) (m.read i)

/-- The 19 items of the reset sequence, as R124 lists them. -/
def nineteenItems : List TxItem :=
  [.raw 0x21] ++ ((List.range 16).map fun i => .reg (BitVec.ofNat 4 i) 0x00) ++ [.raw 0x81, .raw 0xEF]

/-- The state with its next word taken and one reset sample consumed: what the step adds around a request. -/
def taken (s : State) (ws : List Word) : State := { s with words := ws, resetIn := s.resetIn.tail }

end Sys2Proof.Claims

open Sys2Proof Sys2Proof.Machine Sys2Proof.Claims

/-! ## Encoding -/

/-- Words written out from the encodings of R54 to R56, one a row of the opcode table, decode to what they stand for;
`0x00000000` to nothing. -/
def Obligations.EncodedWordsDecode : Prop :=
  decode 0x10F07000#32 = .ok (.get 15 7) ∧ decode 0x1FF00000#32 = .ok (.get (-1) 0) ∧
  decode 0x20503010#32 = .ok (.set 5 3 1) ∧ decode 0x20303FF0#32 = .ok (.set 3 3 (-1)) ∧
  decode 0x31008000#32 = .ok (.del 16 8) ∧ decode 0x40000010#32 = .ok (.fill 1) ∧
  decode 0x5FFFF000#32 = .ok (.ldbm (.header 255 255)) ∧ decode 0x60000000#32 = .ok .flush ∧
  decode 0x80100000#32 = .ok (.encsys true) ∧ decode 0x90200000#32 = .ok (.encblk 2) ∧
  decode 0xAFF00000#32 = .ok (.encbrt (-1)) ∧ decode 0xB0300000#32 = .ok (.setblk 3) ∧
  decode 0xC0800000#32 = .ok (.setbrt 8) ∧ decode 0x00000000#32 = .error .reservedOpcode

/-- R62 over every word: the decoder reads from `{OP, A, B, V, RSV}` what the field table spells. -/
def Obligations.DecoderFollowsTheFieldTable : Prop :=
  ∀ (op : BitVec 4) (a b v : Byte) (rsv : BitVec 4),
    (decode (fieldsWord op a b v rsv)).toOption = spelled op a b v rsv

/-- R59, R60: a header and the `R * C` payload words after it spell LDBM of the matrix with
`M[i][j] = sint_32` of payload word `i*C + j`, and the words after them are left. -/
def Obligations.HeaderAndPayloadSpellTheMatrix : Prop :=
  ∀ (a b : Byte) (payload rest : List Word), payload.length = a.toNat * b.toNat →
    requestLength (fieldsWord 0x5 a b 0 0) = 1 + a.toNat * b.toNat ∧
    ∃ m, decodeRequest (fieldsWord 0x5 a b 0 0 :: (payload ++ rest)) = .ok (.ldbm (.matrix m), rest) ∧
      m.length = a.toNat ∧ (∀ row ∈ m, row.length = b.toNat) ∧
      ∀ i j, i < a.toNat → j < b.toNat →
        (m.getD i []).getD j 0 = (payload.getD (i * b.toNat + j) 0#32).toInt

/-- Every well-formed one-word request is the decoding of its encoding, and one word is all it takes (R60): framing reads
it from the first word and leaves the words after it, whatever they are. A word that is no legal LDBM header stands alone,
and an illegal one spells no request. -/
def Obligations.WordRequestsRoundTrip : Prop :=
  (∀ i : Instr, i.wf = true → (∀ m, i ≠ .ldbm (.matrix m)) → ∃ w, encode i = [w] ∧ decode w = .ok i ∧
    ((∀ r c, i ≠ .ldbm (.header r c)) → requestLength w = 1 ∧ ∀ rest, decodeRequest (w :: rest) = .ok (i, rest))) ∧
  (∀ w : Word, (∀ r c, decode w ≠ .ok (.ldbm (.header r c))) → requestLength w = 1) ∧
  ∀ (w : Word) (why : Illegal), decode w = .error why →
    requestLength w = 1 ∧ ∀ rest, decodeRequest (w :: rest) = .error (.illegal why)

/-- Every matrix that the binary form can carry is read back whole from its header and payload. -/
def Obligations.MatrixRequestsRoundTrip : Prop :=
  ∀ (m : List (List Int)) (rest : List Word), (Instr.ldbm (.matrix m)).wf = true →
    decodeRequest (encode (.ldbm (.matrix m)) ++ rest) = .ok (.ldbm (.matrix m), rest)

/-- Each legal word has one meaning: what it decodes to is well-formed and encodes to that word and no other. -/
def Obligations.DecodedWordsReencode : Prop :=
  ∀ (w : Word) (i : Instr), decode w = .ok i → i.wf = true ∧ encode i = [w]

/-- R68, R69, R74, R87: CLR and LOAD, the four blink names for both mnemonics that take one, and the oscillator operands
assemble to the words the spec gives; every operand that does not fit its field is refused, whatever stands beside it. -/
def Obligations.AssemblerExpandsAndRefuses : Prop :=
  assembleLine ⟨.clr, []⟩ = some [0x40000000#32] ∧
  assembleLine ⟨.encblk, [.blink .off]⟩ = some [0x90000000#32] ∧
  assembleLine ⟨.encblk, [.blink .hz2]⟩ = some [0x90100000#32] ∧
  assembleLine ⟨.encblk, [.blink .hz1]⟩ = some [0x90200000#32] ∧
  assembleLine ⟨.encblk, [.blink .halfHz]⟩ = some [0x90300000#32] ∧
  assembleLine ⟨.setblk, [.blink .off]⟩ = some [0xB0000000#32] ∧
  assembleLine ⟨.setblk, [.blink .hz2]⟩ = some [0xB0100000#32] ∧
  assembleLine ⟨.setblk, [.blink .hz1]⟩ = some [0xB0200000#32] ∧
  assembleLine ⟨.setblk, [.blink .halfHz]⟩ = some [0xB0300000#32] ∧
  (∀ osc ∈ [AsmArg.num 0, .bool false], assembleLine ⟨.encsys, [osc]⟩ = some [0x80000000#32]) ∧
  (∀ osc ∈ [AsmArg.num 1, .bool true], assembleLine ⟨.encsys, [osc]⟩ = some [0x80100000#32]) ∧
  (∀ m : List (List Int), (Instr.ldbm (.matrix m)).wf = true →
    assembleLine ⟨.load, [.matrix m]⟩ =
      some (fieldsWord 0x5 (BitVec.ofNat 8 m.length) (BitVec.ofNat 8 (m.headD []).length) 0 0 ::
        m.flatten.map (BitVec.ofInt 32))) ∧
  (∀ m : List (List Int), (Instr.ldbm (.matrix m)).wf = false → assembleLine ⟨.load, [.matrix m]⟩ = none) ∧
  (∀ row col : Int, outside8 row ∨ outside8 col →
    assembleLine ⟨.get, [.num row, .num col]⟩ = none ∧ assembleLine ⟨.del, [.num row, .num col]⟩ = none) ∧
  (∀ row col v : Int, outside8 row ∨ outside8 col ∨ outside8 v →
    assembleLine ⟨.set, [.num row, .num col, .num v]⟩ = none) ∧
  (∀ n : Int, outside8 n →
    assembleLine ⟨.fill, [.num n]⟩ = none ∧ assembleLine ⟨.encblk, [.num n]⟩ = none ∧
    assembleLine ⟨.encbrt, [.num n]⟩ = none ∧ assembleLine ⟨.setblk, [.num n]⟩ = none ∧
    assembleLine ⟨.setbrt, [.num n]⟩ = none) ∧
  (∀ r c : Int, outsideCount r ∨ outsideCount c → assembleLine ⟨.ldbm, [.num r, .num c]⟩ = none) ∧
  (∀ n : Int, n ≠ 0 → n ≠ 1 → assembleLine ⟨.encsys, [.num n]⟩ = none) ∧
  (∀ n : Int, outside32 n → assembleLine ⟨.word, [.num n]⟩ = none)

/-- R67: a transport item is the record `{kind, addr, data}`, and different items are different records. -/
def Obligations.TransportRecordsNameTheirItems : Prop :=
  (∀ b : Byte, (TxItem.raw b).record = (0#1 ++ 0x0#4 ++ b : BitVec 13)) ∧
  (∀ (a : BitVec 4) (b : Byte), (TxItem.reg a b).record = (1#1 ++ a ++ b : BitVec 13)) ∧
  ∀ x y : TxItem, x.record = y.record → x = y

/-! ## The step -/

/-- R104 at the word level: the step that takes a word spelling a request is `exec` of that request, on the state with
the word taken from the port. -/
def Obligations.StepRunsTheDecodedRequest : Prop :=
  ∀ (s : State) (w : Word) (ws : List Word) (i : Instr), s.Presents w ws → decode w = .ok i →
    step s = exec i (taken s ws)

/-- R61: an illegal word spells no request; it is answered with IllegalRequest and changes nothing else, and no payload
is awaited after it. -/
def Obligations.IllegalWordsAnswerIllegalRequest : Prop :=
  ∀ (op : BitVec 4) (a b v : Byte) (rsv : BitVec 4), illegalFields op a b v rsv →
    (decode (fieldsWord op a b v rsv)).toOption = none ∧ requestLength (fieldsWord op a b v rsv) = 1 ∧
    ∀ (s : State) (ws : List Word), s.Presents (fieldsWord op a b v rsv) ws →
      step s = .next (answer (taken s ws) 7 0x00)

/-- R131: while the block is busy its step takes no word, and only a transport step, one that emits the head of the
queue, ends that. -/
def Obligations.BusyBlockTakesNoWord : Prop :=
  ∀ s : State, s.busy = true → ∃ t, step s = .next t ∧ t.words = s.words ∧
    (t.busy = false → ∃ item rest ans, s.txq = item :: rest ∧ t.trace = s.trace ++ [(item, ans)])

/-- R101, with the answer at the head of the replies: each of its five outcomes, for every state that is sending. -/
def Obligations.TransportStepFollowsTheAnswer : Prop :=
  ∀ (s : State) (item : TxItem) (rest : List TxItem) (rs : List (Option Answer)), s.Sends item rest →
    (s.replies = some .ok :: rs → rest ≠ [] →
      step s = .next { s with resetIn := s.resetIn.tail, replies := rs, trace := s.trace ++ [(item, .ok)],
                              txq := rest }) ∧
    (s.replies = some .ok :: rs → rest = [] → s.mode = .init →
      step s = .next { s with resetIn := s.resetIn.tail, replies := rs, trace := s.trace ++ [(item, .ok)],
                              txq := [], mode := .run }) ∧
    (s.replies = some .ok :: rs → rest = [] → s.mode ≠ .init →
      step s = .next { s with resetIn := s.resetIn.tail, replies := rs, trace := s.trace ++ [(item, .ok)],
                              txq := [], rspStatus := 0, rspData := 0x00 }) ∧
    (s.replies = some .fail :: rs → s.mode = .init →
      step s = .next { s with resetIn := s.resetIn.tail, replies := rs, trace := s.trace ++ [(item, .fail)],
                              txq := [], mode := .dead, rspStatus := 6, rspData := 0x00 }) ∧
    (s.replies = some .fail :: rs → s.mode ≠ .init →
      step s = .next { s with resetIn := s.resetIn.tail, replies := rs, trace := s.trace ++ [(item, .fail)],
                              txq := [], rspStatus := 5, rspData := 0x00 })

/-- R44, R100, R138: an item not answered in a step leaves the block as it is; where the environment has lined up no
reply, the free value of log entry 2 decides between that and the two answers, whatever it is. -/
def Obligations.UnansweredItemsWaitAndFreeRepliesDecide : Prop :=
  ∀ (s : State) (item : TxItem) (rest : List TxItem), s.Sends item rest →
    (∀ rs, s.replies = none :: rs → step s = .next { s with resetIn := s.resetIn.tail, replies := rs }) ∧
    (s.replies = [] →
      step s = match Config.transportReply s.draws with
        | none => .next { s with resetIn := s.resetIn.tail, draws := s.draws + 1 }
        | some ans => .next (txStep ans { s with resetIn := s.resetIn.tail, draws := s.draws + 1 }))

/-- Reset, asserted in any state, puts every piece of the block's state to its value of R31 in one step and answers nothing
of what was in progress (R115, R127). That the ports keep what they hold, but for the sample taken, and that the items
emitted so far become those emitted before the last reset, is the model's choice (log entries 3 and 4). -/
def Obligations.ResetWinsInEveryState : Prop :=
  ∀ (s : State) (samples : List Bool), s.resetIn = true :: samples →
    ∃ t, step s = .next t ∧ (∀ r : Fin 16, memRead r t = 0x00) ∧
      t = { answer s 0 0x00 with
              buf := t.buf, mode := .init, txq := nineteenItems, ld := .none, resetIn := samples,
              traceBefore := s.traceBefore ++ s.trace, trace := [] }

/-- R31, R123, R124: what reset leaves. -/
def Obligations.ResetValues : Prop :=
  (∀ r : Fin 16, memRead r State.reset = 0x00) ∧ State.reset.mode = .init ∧ State.reset.txq = nineteenItems ∧
  State.reset.txq.length = 19 ∧ State.reset.rspStatus = 0 ∧ State.reset.rspData = 0x00 ∧ State.reset.ld = .none

/-- A block that is not busy, with no word presented, stays as it is (the model's choice, log entry 1). -/
def Obligations.IdleBlockWaitsForAWord : Prop :=
  ∀ s : State, s.resetAsserted = false → s.busy = false → s.words = [] →
    step s = .next { s with resetIn := s.resetIn.tail }

/-- R113: the semantics are total; every step and every request answers a next state. -/
def Obligations.NothingEverStops : Prop :=
  (∀ s : State, ∃ t, step s = .next t) ∧ ∀ (i : Instr) (s : State), ∃ t, exec i s = .next t

/-! ## Command encoder -/

/-- R70. -/
def Obligations.EncsysAnswersTheSetupByte : Prop :=
  (∀ (osc : Bool) (s : State),
    exec (.encsys osc) s = .next (answer s 0 (0x20 ||| (if osc then 0x01 else 0x00)))) ∧
  decode (fieldsWord 0x8 0x00 0 0 0) = .ok (.encsys false) ∧
  decode (fieldsWord 0x8 0x01 0 0 0) = .ok (.encsys true) ∧
  ∀ a : Byte, a ≠ 0x00 → a ≠ 0x01 → (decode (fieldsWord 0x8 a 0 0 0)).toOption = none

/-- R71. -/
def Obligations.EncblkAnswersTheBlinkByte : Prop :=
  (∀ (mode : Int) (s : State), exec (.encblk mode) s = .next
    (if 0 ≤ mode ∧ mode ≤ 3 then answer s 0 (0x80 ||| 0x01 ||| (BitVec.ofInt 8 mode <<< 1)) else answer s 2 0x00)) ∧
  ∀ a : Byte, decode (fieldsWord 0x9 a 0 0 0) = .ok (.encblk a.toInt)

/-- R72. -/
def Obligations.EncbrtAnswersTheBrightnessByte : Prop :=
  (∀ (level : Int) (s : State), exec (.encbrt level) s = .next
    (if 0 ≤ level ∧ level ≤ 15 then answer s 0 (0xE0 ||| BitVec.ofInt 8 level) else answer s 2 0x00)) ∧
  ∀ a : Byte, decode (fieldsWord 0xA a 0 0 0) = .ok (.encbrt a.toInt)

/-- R65: the selectors are disjoint, so a byte that an encoder request answers with OK names the command and its
parameter. -/
def Obligations.CommandBytesNameTheirCommand : Prop :=
  ∀ (i j : Instr) (s t u : State), (needsDevice i || needsDevice j) = false →
    (∀ r c, i ≠ .ldbm (.header r c)) → (∀ r c, j ≠ .ldbm (.header r c)) →
    exec i s = .next t → exec j s = .next u → t.rspStatus = 0 → u.rspStatus = 0 →
    t.rspData = u.rspData → i = j

/-! ## Cell access -/

/-- R78, with the frame: nothing but the response is written. -/
def Obligations.GetAnswersTheCell : Prop :=
  (∀ (s : State) (row col : Int),
    (s.mode = .dead → exec (.get row col) s = .next (answer s 6 0x00)) ∧
    (s.mode ≠ .dead → ¬ coordinate row col → exec (.get row col) s = .next (answer s 1 0x00))) ∧
  (∀ (s : State) (r : Fin 16) (c : Fin 8), s.mode ≠ .dead →
    exec (.get (r.val : Int) (c.val : Int)) s =
      .next (answer s 0 (if (memRead r s).getLsbD c.val then 0x01 else 0x00))) ∧
  ∀ a b : Byte, decode (fieldsWord 0x1 a b 0 0) = .ok (.get a.toInt b.toInt)

/-- R79 and the order of R108: the failures, and the one cell a successful SET changes. -/
def Obligations.SetChangesExactlyOneCell : Prop :=
  (∀ (s : State) (row col v : Int),
    (s.mode = .dead → exec (.set row col v) s = .next (answer s 6 0x00)) ∧
    (s.mode ≠ .dead → ¬ coordinate row col → exec (.set row col v) s = .next (answer s 1 0x00)) ∧
    (s.mode ≠ .dead → coordinate row col → ¬ (v = 0 ∨ v = 1) →
      exec (.set row col v) s = .next (answer s 2 0x00)) ∧
    (s.mode ≠ .dead → coordinate row col → (v = 0 ∨ v = 1) →
      ∃ t, exec (.set row col v) s = .next t ∧ t = { answer s 0 0x00 with buf := t.buf } ∧
        ∀ (r : Fin 16) (c : Fin 8), t.cell r c =
          if (r.val : Int) = row ∧ (c.val : Int) = col then decide (v = 1) else s.cell r c)) ∧
  boolOperand true = 1 ∧ boolOperand false = 0 ∧
  ∀ a b v : Byte, decode (fieldsWord 0x2 a b v 0) = .ok (.set a.toInt b.toInt v.toInt)

/-- The frame of a SET: the row stored to is the one its row operand names, every other row reads as before, and
beside the framebuffer only the response may change. -/
def Obligations.SetStoresToItsRowOnly : Prop :=
  ∀ (row col v : Int) (s t : State), exec (.set row col v) s = .next t →
    (∀ r : Fin 16, r ≠ rowIndex row → memRead r t = memRead r s) ∧
    t = { s with buf := t.buf, rspStatus := t.rspStatus, rspData := t.rspData }

/-- R80: DEL fails on every coordinate and changes nothing. -/
def Obligations.DelNeverSucceeds : Prop :=
  (∀ (s : State) (row col : Int),
    exec (.del row col) s = .next (if s.mode = .dead then answer s 6 0x00 else answer s 4 0x00)) ∧
  ∀ a b : Byte, decode (fieldsWord 0x3 a b 0 0) = .ok (.del a.toInt b.toInt)

/-- R81: the cell laws. -/
def Obligations.CellLaws : Prop :=
  (∀ (s : State) (r : Fin 16) (c : Fin 8) (v : Bool), s.mode = .run →
    ∃ t, exec (.set r.val c.val (boolOperand v)) s = .next t ∧
      exec (.get r.val c.val) t = .next (answer t 0 (if v then 0x01 else 0x00)) ∧
      ∀ (r' : Fin 16) (c' : Fin 8), (r', c') ≠ (r, c) → t.cell r' c' = s.cell r' c') ∧
  ∀ (s : State) (row col v : Int), s.mode = .run → 16 ≤ row ∨ 8 ≤ col →
    exec (.get row col) s = .next (answer s 1 0x00) ∧ exec (.set row col v) s = .next (answer s 1 0x00)

/-- R82: the cell enumeration is the 128 coordinate pairs in row-major order. -/
def Obligations.CellEnumerationIsRowMajor : Prop :=
  cellEnum.length = 128 ∧ ∀ k, k < 128 → cellEnum[k]? = some (k / 8, k % 8)

/-! ## Whole-buffer requests -/

/-- R86, R87, with the frame. -/
def Obligations.FillSetsEveryRow : Prop :=
  (∀ (s : State) (v : Int),
    (s.mode = .dead → exec (.fill v) s = .next (answer s 6 0x00)) ∧
    (s.mode ≠ .dead → ¬ (v = 0 ∨ v = 1) → exec (.fill v) s = .next (answer s 2 0x00)) ∧
    (s.mode ≠ .dead → (v = 0 ∨ v = 1) →
      ∃ t, exec (.fill v) s = .next t ∧ t = { answer s 0 0x00 with buf := t.buf } ∧
        ∀ r : Fin 16, memRead r t = if v = 1 then 0xFF else 0x00)) ∧
  boolOperand true = 1 ∧ boolOperand false = 0 ∧
  ∀ v : Byte, decode (fieldsWord 0x4 0 0 v 0) = .ok (.fill v.toInt)

/-- R84, R85, R88, R89: the checks of LDBM in their order, and the 16 rows a matrix of bits becomes, with the frame. -/
def Obligations.LdbmLoadsTheMatrixOrNothing : Prop :=
  ∀ (m : List (List Int)) (s : State),
    (s.mode = .dead → exec (.ldbm (.matrix m)) s = .next (answer s 6 0x00)) ∧
    (s.mode ≠ .dead → ¬ sixteenByEight m → exec (.ldbm (.matrix m)) s = .next (answer s 3 0x00)) ∧
    (s.mode ≠ .dead → sixteenByEight m → ¬ onlyBits m → exec (.ldbm (.matrix m)) s = .next (answer s 2 0x00)) ∧
    (s.mode ≠ .dead → sixteenByEight m → onlyBits m →
      ∃ t, exec (.ldbm (.matrix m)) s = .next t ∧ t = { answer s 0 0x00 with buf := t.buf } ∧
        ∀ (r : Fin 16) (c : Fin 8), t.cell r c = decide ((m.getD r.val []).getD c.val 0 = 1))

/-- R91: loading a matrix of bits and then reading every cell reproduces it. -/
def Obligations.LdbmThenGetReproducesTheMatrix : Prop :=
  ∀ (m : List (List Int)) (s : State), s.mode = .run → sixteenByEight m → onlyBits m →
    ∃ t, exec (.ldbm (.matrix m)) s = .next t ∧
      ∀ (r : Fin 16) (c : Fin 8), exec (.get r.val c.val) t =
        .next (answer t 0 (BitVec.ofInt 8 ((m.getD r.val []).getD c.val 0)))

/-- R92: a successful LDBM leaves the framebuffer as the 128 SETs of its elements would, in the order of the cell
enumeration and in every other. A matrix with a non-bit fails and leaves it unchanged, while the 128 SETs write every
valid element. -/
def Obligations.LdbmEqualsSetsInAnyOrder : Prop :=
  ∀ (m : List (List Int)) (s : State) (cells : List (Nat × Nat)), s.mode = .run → sixteenByEight m →
    cells.Perm cellEnum →
    ∃ t u, exec (.ldbm (.matrix m)) s = .next t ∧
      execAll (cells.map fun p => .set (p.1 : Int) (p.2 : Int) ((m.getD p.1 []).getD p.2 0)) s = .next u ∧
      (onlyBits m → ∀ r : Fin 16, memRead r t = memRead r u) ∧
      (¬ onlyBits m → (∀ r : Fin 16, memRead r t = memRead r s) ∧ ∀ (r : Fin 16) (c : Fin 8), u.cell r c =
        if (m.getD r.val []).getD c.val 0 = 0 then false
        else if (m.getD r.val []).getD c.val 0 = 1 then true
        else s.cell r c)

/-- R90, the header: with no payload LDBM is performed at once and fails, with some it starts the collector and writes
no response; in DEAD mode too (R109). -/
def Obligations.LdbmHeaderStartsTheCollector : Prop :=
  (∀ (r c : Fin 256) (s : State),
    (r.val * c.val = 0 →
      exec (.ldbm (.header r c)) s = .next (if s.mode = .dead then answer s 6 0x00 else answer s 3 0x00)) ∧
    (r.val * c.val ≠ 0 → exec (.ldbm (.header r c)) s = .next { s with ld := .collecting r c [] })) ∧
  ∀ a b : Byte, decode (fieldsWord 0x5 a b 0 0) = .ok (.ldbm (.header a.toFin b.toFin))

/-- R90, R132, a payload word: whatever it holds it is the next element; the last one performs LDBM of the matrix with
`M[i][j] = e'[i*C + j]`. -/
def Obligations.PayloadWordsAreElements : Prop :=
  ∀ (s : State) (r c : Fin 256) (e : List Int) (w : Word) (ws : List Word),
    s.resetAsserted = false → s.busy = false → s.ld = .collecting r c e → s.words = w :: ws →
    (e.length + 1 < r.val * c.val →
      step s = .next { taken s ws with ld := .collecting r c (e ++ [w.toInt]) }) ∧
    (e.length + 1 = r.val * c.val →
      ∃ m : List (List Int), step s = exec (.ldbm (.matrix m)) { taken s ws with ld := .none } ∧
        m.length = r.val ∧ (∀ row ∈ m, row.length = c.val) ∧
        ∀ i j, i < r.val → j < c.val → (m.getD i []).getD j 0 = (e ++ [w.toInt]).getD (i * c.val + j) 0)

/-- R59 and R90 as one transaction: presenting the words of `LDBM(M)` to a block between requests performs exactly
the term `LDBM(M)`, for every matrix the binary form can carry and in DEAD mode too (R109). -/
def Obligations.LdbmWordsPerformTheTerm : Prop :=
  ∀ (m : List (List Int)) (s : State) (ws : List Word), (Instr.ldbm (.matrix m)).wf = true →
    s.busy = false → s.ld = .none → s.resetIn = [] → s.words = encode (.ldbm (.matrix m)) ++ ws →
    run (encode (.ldbm (.matrix m))).length s = exec (.ldbm (.matrix m)) { s with words := ws }

/-! ## Flush and command dispatch -/

/-- R94, R95, the request: the snapshot is queued and no response is written. -/
def Obligations.FlushQueuesTheSnapshot : Prop :=
  (∀ s : State,
    exec .flush s = .next (if s.mode = .dead then answer s 6 0x00 else { s with txq := itemsOf s.buf })) ∧
  decode 0x60000000#32 = .ok .flush

/-- R97, the request: one raw write is queued after the check, or nothing. -/
def Obligations.SetblkQueuesOneRawWrite : Prop :=
  (∀ (mode : Int) (s : State),
    exec (.setblk mode) s = .next (if s.mode = .dead then answer s 6 0x00
      else if 0 ≤ mode ∧ mode ≤ 3 then { s with txq := [.raw (0x81 ||| (BitVec.ofInt 8 mode <<< 1))] }
      else answer s 2 0x00)) ∧
  ∀ a : Byte, decode (fieldsWord 0xB a 0 0 0) = .ok (.setblk a.toInt)

/-- R98, the request: one raw write is queued after the check, or nothing. -/
def Obligations.SetbrtQueuesOneRawWrite : Prop :=
  (∀ (level : Int) (s : State),
    exec (.setbrt level) s = .next (if s.mode = .dead then answer s 6 0x00
      else if 0 ≤ level ∧ level ≤ 15 then { s with txq := [.raw (0xE0 ||| BitVec.ofInt 8 level)] }
      else answer s 2 0x00)) ∧
  ∀ a : Byte, decode (fieldsWord 0xC a 0 0 0) = .ok (.setbrt a.toInt)

/-- A FLUSH with framebuffer `b`, its items answered one after the other (R102). With 16 answers `ok` it emits all 16 items
and answers OK; with a `fail` at item `k + 1` it emits the items up to that one and answers TransportError. Of the chip,
by the views of log entry 9: the registers answered `ok` hold their row; the failed one, and those whose items are not
sent, are unknown (R45, U1). -/
def Obligations.FlushAsOneTransaction : Prop :=
  ∀ (s : State) (ws : List Word) (rs : List (Option Answer)), s.Idle → s.words = 0x60000000#32 :: ws →
    (s.replies = List.replicate 16 (some .ok) ++ rs →
      ∃ t, run 17 s = .next t ∧
        t = { answer s 0 0x00 with
                words := ws, replies := rs, trace := s.trace ++ (itemsOf s.buf).map fun x => (x, Answer.ok) } ∧
        ∀ a : BitVec 4, chipRegister t.trace a = some (s.buf.read a.toNat)) ∧
    ∀ k, k < 16 → s.replies = List.replicate k (some .ok) ++ some .fail :: rs →
      ∃ t, run (k + 2) s = .next t ∧
        t = { answer s 5 0x00 with
                words := ws, replies := rs,
                trace := s.trace ++ ((itemsOf s.buf).take k).map (fun x => (x, Answer.ok)) ++
                  [(.reg (BitVec.ofNat 4 k) (s.buf.read k), .fail)] } ∧
        ∀ a : BitVec 4, chipRegister t.trace a =
          if a.toNat < k then some (s.buf.read a.toNat) else none

/-- R103: a setter with a valid operand emits exactly one raw item and answers by its answer; with an invalid one it
emits nothing and answers InvalidArgument. -/
def Obligations.SettersAsOneTransaction : Prop :=
  ∀ (s : State) (w : Word) (ws : List Word) (ans : Answer) (rs : List (Option Answer)), s.Idle → s.words = w :: ws →
    s.replies = some ans :: rs →
    ∀ n : Int,
      (decode w = .ok (.setblk n) →
        (0 ≤ n ∧ n ≤ 3 → run 2 s = .next
          { answer s (if ans = .ok then 0 else 5) 0x00 with
              words := ws, replies := rs, trace := s.trace ++ [(.raw (BitVec.ofInt 8 (0x81 + 2 * n)), ans)] }) ∧
        (¬ (0 ≤ n ∧ n ≤ 3) → step s = .next { answer s 2 0x00 with words := ws })) ∧
      (decode w = .ok (.setbrt n) →
        (0 ≤ n ∧ n ≤ 15 → run 2 s = .next
          { answer s (if ans = .ok then 0 else 5) 0x00 with
              words := ws, replies := rs, trace := s.trace ++ [(.raw (BitVec.ofInt 8 (0xE0 + n)), ans)] }) ∧
        (¬ (0 ≤ n ∧ n ≤ 15) → step s = .next { answer s 2 0x00 with words := ws }))

/-! ## Reset sequence and lifecycle -/

/-- R124, R125: after reset, 19 answers `ok` emit the 19 items in order and leave the block ready, with the response
of reset; before the last of them it is busy. -/
def Obligations.ResetSequenceCompletes : Prop :=
  ∀ (s : State) (rs : List (Option Answer)),
    s = { State.reset with words := s.words, replies := List.replicate 19 (some .ok) ++ rs, draws := s.draws,
                           traceBefore := s.traceBefore, trace := s.trace } →
    (∃ t, run 19 s = .next t ∧ t.ready = true ∧
      t = { s with mode := .run, txq := [], replies := rs,
                   trace := s.trace ++ nineteenItems.map fun x => (x, Answer.ok) }) ∧
    ∀ k, k < 19 → ∃ t, run k s = .next t ∧ t.busy = true ∧ t.ready = false ∧ t.words = s.words

/-- A `fail` at item `k + 1` of the reset sequence drops the rest of it and leaves DEAD mode and InitializationError, the
framebuffer all zero (R126). Of the chip, by the views of log entry 9: the registers written before the failed item hold
0x00; every other, the failed one or one whose item is not sent, is unknown (R45, R128, U1). -/
def Obligations.ResetSequenceAborts : Prop :=
  ∀ (s : State) (rs : List (Option Answer)) (k : Nat), k < 19 →
    s = { State.reset with words := s.words, replies := List.replicate k (some .ok) ++ some .fail :: rs,
                           draws := s.draws, traceBefore := s.traceBefore, trace := s.trace } →
    ∃ t, run (k + 1) s = .next t ∧ (∀ r : Fin 16, memRead r t = 0x00) ∧
      t = { answer s 6 0x00 with
              mode := .dead, txq := [], replies := rs,
              trace := s.trace ++ (nineteenItems.take k).map (fun x => (x, Answer.ok)) ++
                ((nineteenItems.drop k).take 1).map fun x => (x, Answer.fail) } ∧
      ∀ a : BitVec 4, chipRegister t.trace a =
        if a.toNat + 1 < k then some 0x00 else none

/-- R109: in DEAD mode every request that needs the device answers InitializationError and changes nothing else. -/
def Obligations.DeadModeRefusesTheDevice : Prop :=
  ∀ (i : Instr) (s : State), needsDevice i = true → s.mode = .dead → exec i s = .next (answer s 6 0x00)

/-- R109, R111: only reset leaves DEAD mode, and nothing changes the framebuffer or the queue in it. -/
def Obligations.DeadModeLastsUntilReset : Prop :=
  ∀ s t : State, s.mode = .dead → s.resetAsserted = false → step s = .next t →
    t.mode = .dead ∧ (s.txq = [] → t.txq = []) ∧ ∀ r : Fin 16, memRead r t = memRead r s

/-- R20: the mode is written only by reset and by the transport step that ends the reset sequence. -/
def Obligations.ModeChangesOnlyInTheResetSequence : Prop :=
  (∀ (i : Instr) (s t : State), exec i s = .next t → t.mode = s.mode) ∧
  ∀ s t : State, step s = .next t → s.resetAsserted = false → t.mode ≠ s.mode →
    s.mode = .init ∧ s.txq ≠ [] ∧ t.txq = []

/-! ## Frames and whole-machine rules -/

/-- The frame of GET, DEL and the encoder requests: nothing but the response, not one row (R40, R42, R73, R80). -/
def Obligations.AnsweringRequestsFrame : Prop :=
  ∀ (i : Instr) (s t : State), onlyAnswers i = true → exec i s = .next t →
    (∀ r : Fin 16, memRead r t = memRead r s) ∧
    t = { s with rspStatus := t.rspStatus, rspData := t.rspData }

/-- The frame of FLUSH, SETBLK and SETBRT: the queue or the response, never both, and not one row (R93, R97, R104). -/
def Obligations.TransportRequestsFrame : Prop :=
  ∀ (i : Instr) (s t : State), usesTransport i = true → exec i s = .next t →
    (∀ r : Fin 16, memRead r t = memRead r s) ∧
    (t = { s with txq := t.txq } ∨ t = { s with rspStatus := t.rspStatus, rspData := t.rspData })

/-- The frame of FILL and LDBM: the rows and the response, or the collector alone; the rows are all written or none is
(R83). -/
def Obligations.BulkRequestsFrame : Prop :=
  (∀ (v : Int) (s t : State), exec (.fill v) s = .next t →
    t = { s with buf := t.buf, rspStatus := t.rspStatus, rspData := t.rspData } ∧
    (t.rspStatus ≠ 0 → ∀ r : Fin 16, memRead r t = memRead r s)) ∧
  (∀ (m : List (List Int)) (s t : State), exec (.ldbm (.matrix m)) s = .next t →
    t = { s with buf := t.buf, rspStatus := t.rspStatus, rspData := t.rspData } ∧
    (t.rspStatus ≠ 0 → ∀ r : Fin 16, memRead r t = memRead r s)) ∧
  ∀ (rowCount colCount : Fin 256) (s t : State), exec (.ldbm (.header rowCount colCount)) s = .next t →
    (∀ r : Fin 16, memRead r t = memRead r s) ∧
    (t = { s with ld := t.ld } ∨ t = { s with rspStatus := t.rspStatus, rspData := t.rspData })

/-- R17: only SET, FILL, LDBM and reset write the framebuffer; no transport answer does. -/
def Obligations.OnlyStoringRequestsWriteTheFramebuffer : Prop :=
  (∀ (i : Instr) (s t : State), writesFramebuffer i = false → exec i s = .next t →
    ∀ r : Fin 16, memRead r t = memRead r s) ∧
  ∀ s t : State, s.resetAsserted = false → s.txq ≠ [] → step s = .next t →
    ∀ r : Fin 16, memRead r t = memRead r s

/-- R107, R110, R111: a request after which the status is not OK, whatever the response was before it, has failed, writing
that status, the datum 0x00 and nothing else; or it has written no response yet, and only queued its items (FLUSH, SETBLK,
SETBRT) or only started the collector (an LDBM header). -/
def Obligations.FailuresChangeOnlyTheResponse : Prop :=
  ∀ (i : Instr) (s t : State), exec i s = .next t → t.rspStatus ≠ 0 →
    t = answer s t.rspStatus 0x00 ∨
    (usesTransport i = true ∧ t.txq ≠ [] ∧ t = { s with txq := t.txq }) ∨
    ((∃ r c, i = .ldbm (.header r c)) ∧ t.ld ≠ .none ∧ t = { s with ld := t.ld })

/-- R104, R106: every request writes a status of its row in the step that takes it, but for those that may leave the
response to later steps (FLUSH, SETBLK, SETBRT and an LDBM header), after which it may be as before. -/
def Obligations.StatusesOfEachRequest : Prop :=
  ∀ (i : Instr) (s t : State), exec i s = .next t →
    t.rspStatus ∈ statusesOf i ∨
    (mayDefer i = true ∧ t.rspStatus = s.rspStatus ∧ t.rspData = s.rspData)

/-- R42: every request that touches no transport is idempotent. The premise is the invariant of the framebuffer's
canonical form (`ResetSatisfiesTheInvariant`, `StepKeepsTheInvariant`). For an LDBM header with a payload, the second
time is `exec` on a block that awaits payload, where the machine would take its word as an element (R132): that case is
the model's choice (log entry 12). -/
def Obligations.RequestsWithoutTransportAreIdempotent : Prop :=
  ∀ (i : Instr) (s t : State), usesTransport i = false → s.buf.wf = true → exec i s = .next t → exec i t = .next t

/-- R23, R44, R48: a step emits at most one item, the head of the queue, and puts it at the end of the transport trace. -/
def Obligations.TraceGrowsByTheHeadOfTheQueue : Prop :=
  ∀ s t : State, step s = .next t →
    t.transportTrace = s.transportTrace ∨
    ∃ item rest ans, s.txq = item :: rest ∧ t.transportTrace = s.transportTrace ++ [(item, ans)]

/-- R99: no step both takes a word and emits an item. -/
def Obligations.NoStepTakesAWordAndEmitsAnItem : Prop :=
  ∀ s t : State, step s = .next t → t.words = s.words ∨ t.transportTrace = s.transportTrace

/-- The invariant holds after reset, whatever stands on the ports. -/
def Obligations.ResetSatisfiesTheInvariant : Prop :=
  ∀ (words : List Word) (replies : List (Option Answer)) (draws : Nat) (resetIn : List Bool),
    State.Inv { State.reset with words := words, replies := replies, draws := draws, resetIn := resetIn }

/-- Every step keeps the invariant: the framebuffer's canonical form (R15, R16), the bound of the queue and what it may
hold (R20, R23, R37, R64, R134), the lifecycle (R20, R31, R126), the status codes (R105), the collector (R25). -/
def Obligations.StepKeepsTheInvariant : Prop :=
  ∀ s t : State, s.Inv → step s = .next t → t.Inv

/-! ## What the transport trace tells of the chip, and the assembler's lines -/

/-- R128, by the views of log entry 9: after reset nothing is known of the chip, neither a register nor a command of its
configuration, whatever was emitted before; the transport trace is not shortened (log entry 3). -/
def Obligations.ResetMakesTheChipUnknown : Prop :=
  ∀ (s : State) (samples : List Bool), s.resetIn = true :: samples →
    ∃ t, step s = .next t ∧ t.transportTrace = s.transportTrace ∧
      (∀ a : BitVec 4, chipRegister t.trace a = none) ∧ ∀ c : Command, chipCommand t.trace c = none

/-- R125, R128, by the views of log entry 9: after a completed reset sequence the chip's registers hold 0x00, and its
configuration is that of 0x21, 0x81 and 0xEF. -/
def Obligations.CompletedResetSequenceWritesTheChip : Prop :=
  ∀ (s : State) (rs : List (Option Answer)),
    s = { State.reset with words := s.words, replies := List.replicate 19 (some .ok) ++ rs, draws := s.draws,
                           traceBefore := s.traceBefore, trace := s.trace } →
    ∃ t, run 19 s = .next t ∧ (∀ a : BitVec 4, chipRegister t.trace a = some 0x00) ∧
      chipCommand t.trace .systemSetup = some 0x21 ∧ chipCommand t.trace .blink = some 0x81 ∧
      chipCommand t.trace .brightness = some 0xEF

/-- R45, R49, U1, by the views of log entry 9: what the step that answers an item tells of the chip. A register write
answered `ok` is in its register and a command byte answered `ok` is the last of its command; a failed register write makes
its register and those above it unknown, a failed raw write the whole configuration; of the registers, a failed system
setup makes every one unknown, and any other failed raw write leaves what was known of them. -/
def Obligations.AnswersTellOfTheChip : Prop :=
  ∀ (s : State) (item : TxItem) (rest : List TxItem) (ans : Answer) (rs : List (Option Answer)), s.Sends item rest →
    s.replies = some ans :: rs →
    ∃ t, step s = .next t ∧
      (∀ (b : BitVec 4) (v : Byte), item = .reg b v → (∀ c : Command, chipCommand t.trace c = chipCommand s.trace c) ∧
        ∀ a : BitVec 4, chipRegister t.trace a =
          if ans = .ok then (if a = b then some v else chipRegister s.trace a)
          else if a.toNat < b.toNat then chipRegister s.trace a else none) ∧
      ∀ b : Byte, item = .raw b →
        (ans = .fail → (∀ c : Command, chipCommand t.trace c = none) ∧
          ∀ a : BitVec 4, chipRegister t.trace a =
            if b.extractLsb' 5 3 = 0b001#3 then none else chipRegister s.trace a) ∧
        (ans = .ok → (∀ a : BitVec 4, chipRegister t.trace a = chipRegister s.trace a) ∧
          ∀ c : Command, chipCommand t.trace c =
            if b.extractLsb' 5 3 = (match c with | .systemSetup => 0b001#3 | .blink => 0b100#3 | .brightness => 0b111#3)
            then some b else chipCommand s.trace c)

/-- R68: for each of the eleven mnemonics and for `.word`, a line of numbers that fit gives the word of its fields. The
lines with names for numbers, and CLR and LOAD, stand in `AssemblerExpandsAndRefuses`. -/
def Obligations.AssemblerEncodesOperandsThatFit : Prop :=
  (∀ a b v : Byte,
    assembleLine ⟨.get, [.num a.toInt, .num b.toInt]⟩ = some [fieldsWord 0x1 a b 0 0] ∧
    assembleLine ⟨.set, [.num a.toInt, .num b.toInt, .num v.toInt]⟩ = some [fieldsWord 0x2 a b v 0] ∧
    assembleLine ⟨.del, [.num a.toInt, .num b.toInt]⟩ = some [fieldsWord 0x3 a b 0 0] ∧
    assembleLine ⟨.fill, [.num v.toInt]⟩ = some [fieldsWord 0x4 0 0 v 0] ∧
    assembleLine ⟨.ldbm, [.num (a.toNat : Int), .num (b.toNat : Int)]⟩ = some [fieldsWord 0x5 a b 0 0] ∧
    assembleLine ⟨.flush, []⟩ = some [fieldsWord 0x6 0 0 0 0] ∧
    assembleLine ⟨.encsys, [.num 0]⟩ = some [fieldsWord 0x8 0x00 0 0 0] ∧
    assembleLine ⟨.encsys, [.num 1]⟩ = some [fieldsWord 0x8 0x01 0 0 0] ∧
    assembleLine ⟨.encblk, [.num a.toInt]⟩ = some [fieldsWord 0x9 a 0 0 0] ∧
    assembleLine ⟨.encbrt, [.num a.toInt]⟩ = some [fieldsWord 0xA a 0 0 0] ∧
    assembleLine ⟨.setblk, [.num a.toInt]⟩ = some [fieldsWord 0xB a 0 0 0] ∧
    assembleLine ⟨.setbrt, [.num a.toInt]⟩ = some [fieldsWord 0xC a 0 0 0]) ∧
  ∀ w : Word, assembleLine ⟨.word, [.num w.toInt]⟩ = some [w]
end

