-- ==== Sys2Proof/Laws/Decode.lean ====
section
/-! SUPPORT. The laws of the request word's fields, of the operand fields and of the payload, and the decoder on a word
given by its fields. -/

namespace Sys2Proof

/-! ### Fields of a word given by its fields (R54) -/

section Fields

variable (op : BitVec 4) (a b v : Byte) (rsv : BitVec 4)

@[simp] theorem opField_append : opField (op ++ a ++ b ++ v ++ rsv : Word) = op := by
  apply BitVec.eq_of_getLsbD_eq; intro i hi
  simp only [opField, BitVec.getLsbD_extractLsb', BitVec.getLsbD_append]
  have h1 : ¬ 28 + i < 4 := by omega
  have h2 : ¬ 28 + i - 4 < 8 := by omega
  have h3 : ¬ 28 + i - 4 - 8 < 8 := by omega
  have h4 : ¬ 28 + i - 4 - 8 - 8 < 8 := by omega
  have h5 : 28 + i - 4 - 8 - 8 - 8 = i := by omega
  simp [h1, h2, h3, h4, h5, hi]

@[simp] theorem aField_append : aField (op ++ a ++ b ++ v ++ rsv : Word) = a := by
  apply BitVec.eq_of_getLsbD_eq; intro i hi
  simp only [aField, BitVec.getLsbD_extractLsb', BitVec.getLsbD_append]
  have h1 : ¬ 20 + i < 4 := by omega
  have h2 : ¬ 20 + i - 4 < 8 := by omega
  have h3 : ¬ 20 + i - 4 - 8 < 8 := by omega
  have h4 : 20 + i - 4 - 8 - 8 < 8 := by omega
  have h5 : 20 + i - 4 - 8 - 8 = i := by omega
  simp [h1, h2, h3, h5, hi]

@[simp] theorem bField_append : bField (op ++ a ++ b ++ v ++ rsv : Word) = b := by
  apply BitVec.eq_of_getLsbD_eq; intro i hi
  simp only [bField, BitVec.getLsbD_extractLsb', BitVec.getLsbD_append]
  have h1 : ¬ 12 + i < 4 := by omega
  have h2 : ¬ 12 + i - 4 < 8 := by omega
  have h5 : 12 + i - 4 - 8 = i := by omega
  simp [h1, h2, h5, hi]

@[simp] theorem vField_append : vField (op ++ a ++ b ++ v ++ rsv : Word) = v := by
  apply BitVec.eq_of_getLsbD_eq; intro i hi
  simp only [vField, BitVec.getLsbD_extractLsb', BitVec.getLsbD_append]
  have h1 : ¬ 4 + i < 4 := by omega
  have h5 : 4 + i - 4 = i := by omega
  simp [h1, h5, hi]

@[simp] theorem rsvField_append : rsvField (op ++ a ++ b ++ v ++ rsv : Word) = rsv := by
  apply BitVec.eq_of_getLsbD_eq; intro i hi
  simp only [rsvField, BitVec.getLsbD_extractLsb', BitVec.getLsbD_append]
  simp [hi]

end Fields

/-- A word is the concatenation of its fields (R54). -/
theorem word_eq_append (w : Word) : w = opField w ++ aField w ++ bField w ++ vField w ++ rsvField w := by
  apply BitVec.eq_of_getLsbD_eq; intro i hi
  simp only [opField, aField, bField, vField, rsvField, BitVec.getLsbD_extractLsb', BitVec.getLsbD_append]
  by_cases h1 : i < 4
  · simp [h1]
  by_cases h2 : i - 4 < 8
  · have e : 4 + (i - 4) = i := by omega
    simp [h1, h2, e]
  by_cases h3 : i - 4 - 8 < 8
  · have e : 12 + (i - 4 - 8) = i := by omega
    simp [h1, h2, h3, e]
  by_cases h4 : i - 4 - 8 - 8 < 8
  · have e : 20 + (i - 4 - 8 - 8) = i := by omega
    simp [h1, h2, h3, h4, e]
  · have e : 28 + (i - 4 - 8 - 8 - 8) = i := by omega
    have h5 : i - 4 - 8 - 8 - 8 < 4 := by omega
    simp [h1, h2, h3, h4, e, h5]

section MkWord

variable (op : BitVec 4) (a b v : Byte)

@[simp] theorem opField_mkWord : opField (mkWord op a b v) = op := opField_append op a b v 0
@[simp] theorem aField_mkWord : aField (mkWord op a b v) = a := aField_append op a b v 0
@[simp] theorem bField_mkWord : bField (mkWord op a b v) = b := bField_append op a b v 0
@[simp] theorem vField_mkWord : vField (mkWord op a b v) = v := vField_append op a b v 0
@[simp] theorem rsvField_mkWord : rsvField (mkWord op a b v) = 0 := rsvField_append op a b v 0

end MkWord

/-! ### The decoder on a word given by its fields (R62), one lemma an opcode -/

section DecodeFields

variable (a b v : Byte)

@[simp] theorem toOption_unusedZero (zero : Bool) (i : Instr) :
    (unusedZero zero i).toOption = if zero then some i else none := by cases zero <;> rfl

theorem unusedZero_eq_ok {zero : Bool} {i j : Instr} : unusedZero zero i = .ok j ↔ zero = true ∧ i = j := by
  cases zero <;> simp [unusedZero]

/-- A nonzero RSV makes the word illegal whatever its other fields are (R54, R61). -/
theorem decode_reservedBits (op : BitVec 4) {rsv : BitVec 4} (h : rsv ≠ 0) :
    decode (op ++ a ++ b ++ v ++ rsv : Word) = .error .reservedBits := by
  simp only [decode, rsvField_append, ne_eq, h, not_false_eq_true, ↓reduceIte]

theorem decode_get : decode (mkWord 0x1 a b v) =
    unusedZero (v == 0) (.get (sext8 a) (sext8 b)) := by
  simp only [decode, rsvField_mkWord, opField_mkWord, aField_mkWord, bField_mkWord, vField_mkWord]
  rfl

theorem decode_set : decode (mkWord 0x2 a b v) =
    .ok (.set (sext8 a) (sext8 b) (sext8 v)) := by
  simp only [decode, rsvField_mkWord, opField_mkWord, aField_mkWord, bField_mkWord, vField_mkWord]
  rfl

theorem decode_del : decode (mkWord 0x3 a b v) =
    unusedZero (v == 0) (.del (sext8 a) (sext8 b)) := by
  simp only [decode, rsvField_mkWord, opField_mkWord, aField_mkWord, bField_mkWord, vField_mkWord]
  rfl

theorem decode_fill : decode (mkWord 0x4 a b v) =
    unusedZero (a == 0 && b == 0) (.fill (sext8 v)) := by
  simp only [decode, rsvField_mkWord, opField_mkWord, aField_mkWord, bField_mkWord, vField_mkWord]
  rfl

theorem decode_ldbm : decode (mkWord 0x5 a b v) =
    unusedZero (v == 0) (.ldbm (.header (zext8 a) (zext8 b))) := by
  simp only [decode, rsvField_mkWord, opField_mkWord, aField_mkWord, bField_mkWord, vField_mkWord]
  rfl

theorem decode_flush : decode (mkWord 0x6 a b v) =
    unusedZero (a == 0 && b == 0 && v == 0) .flush := by
  simp only [decode, rsvField_mkWord, opField_mkWord, aField_mkWord, bField_mkWord, vField_mkWord]
  rfl

theorem decode_encsys : decode (mkWord 0x8 a b v) =
    if b == 0 && v == 0 then
        if a = 0x00 then .ok (.encsys false)
        else if a = 0x01 then .ok (.encsys true)
        else .error .oscillatorField
      else .error .unusedField := by
  simp only [decode, rsvField_mkWord, opField_mkWord, aField_mkWord, bField_mkWord, vField_mkWord]
  rfl

theorem decode_encblk : decode (mkWord 0x9 a b v) =
    unusedZero (b == 0 && v == 0) (.encblk (sext8 a)) := by
  simp only [decode, rsvField_mkWord, opField_mkWord, aField_mkWord, bField_mkWord, vField_mkWord]
  rfl

theorem decode_encbrt : decode (mkWord 0xA a b v) =
    unusedZero (b == 0 && v == 0) (.encbrt (sext8 a)) := by
  simp only [decode, rsvField_mkWord, opField_mkWord, aField_mkWord, bField_mkWord, vField_mkWord]
  rfl

theorem decode_setblk : decode (mkWord 0xB a b v) =
    unusedZero (b == 0 && v == 0) (.setblk (sext8 a)) := by
  simp only [decode, rsvField_mkWord, opField_mkWord, aField_mkWord, bField_mkWord, vField_mkWord]
  rfl

theorem decode_setbrt : decode (mkWord 0xC a b v) =
    unusedZero (b == 0 && v == 0) (.setbrt (sext8 a)) := by
  simp only [decode, rsvField_mkWord, opField_mkWord, aField_mkWord, bField_mkWord, vField_mkWord]
  rfl

/-- The five reserved opcodes (R55). -/
theorem decode_reservedOpcode {op : BitVec 4} (h : op ∈ [0x0#4, 0x7#4, 0xD#4, 0xE#4, 0xF#4]) :
    decode (mkWord op a b v) = .error .reservedOpcode := by
  simp only [decode, rsvField_mkWord, opField_mkWord, aField_mkWord, bField_mkWord, vField_mkWord]
  simp only [List.mem_cons, List.not_mem_nil, or_false] at h
  rcases h with rfl | rfl | rfl | rfl | rfl <;> rfl

end DecodeFields

/-! ### Operand fields (R57, R59) -/

theorem fitsSext8_iff {n : Int} : fitsSext8 n = true ↔ -128 ≤ n ∧ n ≤ 127 := by simp [fitsSext8]

theorem fitsSint32_iff {n : Int} : fitsSint32 n = true ↔ -2147483648 ≤ n ∧ n ≤ 2147483647 := by
  simp [fitsSint32]

/-- A signed field carries every integer that fits it. -/
theorem sext8_field8 {n : Int} (h : fitsSext8 n = true) : sext8 (field8 n) = n := by
  rw [fitsSext8_iff] at h
  rw [sext8, field8, BitVec.toInt_ofInt]
  exact Int.bmod_eq_of_le (by omega) (by omega)

@[simp] theorem field8_sext8 (f : Byte) : field8 (sext8 f) = f := BitVec.ofInt_toInt

theorem fitsSext8_sext8 (f : Byte) : fitsSext8 (sext8 f) = true := by
  rw [fitsSext8_iff]
  have h0 := BitVec.le_toInt f
  have h1 := BitVec.toInt_lt (x := f)
  simp only [sext8]
  omega

/-- A payload word carries every 32-bit element. -/
theorem sint32_payloadWord {n : Int} (h : fitsSint32 n = true) : sint32 (payloadWord n) = n := by
  rw [fitsSint32_iff] at h
  rw [sint32, payloadWord, BitVec.toInt_ofInt]
  exact Int.bmod_eq_of_le (by omega) (by omega)

/-! ### The payload matrix (R59, R90) -/

/-- The row-major elements of a rectangular matrix give the matrix back. -/
theorem payloadMatrix_flatten {m : List (List Int)} {cols : Nat} (h : ∀ row ∈ m, row.length = cols) :
    payloadMatrix m.length cols m.flatten = m := by
  have hget : ∀ (m : List (List Int)), (∀ row ∈ m, row.length = cols) → ∀ i j, i < m.length → j < cols →
      m.flatten.getD (i * cols + j) 0 = (m.getD i []).getD j 0 := by
    intro m
    induction m with
    | nil => intro _ i j hi; simp at hi
    | cons row rest ih =>
      intro h i j hi hj
      have hrow : row.length = cols := h row (by simp)
      cases i with
      | zero =>
        rw [List.flatten_cons, Nat.zero_mul, Nat.zero_add, List.getD_append _ _ _ _ (by omega)]
        rfl
      | succ i =>
        have e : (i + 1) * cols + j = i * cols + j + cols := by ring
        rw [List.flatten_cons, List.getD_append_right _ _ _ _ (by omega), e]
        have e2 : i * cols + j + cols - row.length = i * cols + j := by omega
        rw [e2, ih (fun r hr => h r (by simp [hr])) i j (by simpa using hi) hj]
        simp
  apply List.ext_getElem
  · simp [payloadMatrix]
  · intro i h1 h2
    have hlen : m[i].length = cols := h _ (List.getElem_mem h2)
    apply List.ext_getElem
    · simp [payloadMatrix, hlen]
    · intro j h3 h4
      have hj : j < cols := by omega
      simp only [payloadMatrix, List.getElem_map, List.getElem_range]
      rw [hget m h i j h2 hj]
      rw [List.getD_eq_getElem _ _ h2, List.getD_eq_getElem _ _ h4]

theorem length_flatten_rect {m : List (List Int)} {cols : Nat} (h : ∀ row ∈ m, row.length = cols) :
    m.flatten.length = m.length * cols := by
  induction m with
  | nil => simp
  | cons row rest ih =>
    have h1 : row.length = cols := h row (by simp)
    have := ih fun r hr => h r (by simp [hr])
    rw [List.flatten_cons, List.length_append, this, h1, List.length_cons]
    ring

/-! ### Matrices that fit -/

theorem matrixFits_iff {m : List (List Int)} : matrixFits m = true ↔
    m.length < 256 ∧ colCount m < 256 ∧ (∀ row ∈ m, row.length = colCount m) ∧ m.flatten.all fitsSint32 = true := by
  simp only [matrixFits, Bool.and_eq_true, decide_eq_true_eq, List.all_eq_true, List.mem_flatten]
  constructor
  · rintro ⟨⟨h1, h2⟩, h3⟩
    exact ⟨h1, h2, fun row hrow => (h3 row hrow).1, fun x ⟨row, hrow, hx⟩ => (h3 row hrow).2 x hx⟩
  · rintro ⟨h1, h2, h3, h4⟩
    exact ⟨⟨h1, h2⟩, fun row hrow => ⟨h3 row hrow, fun x hx => h4 x ⟨row, hrow, hx⟩⟩⟩

/-- Elements that fit come back from their payload words (R59). -/
theorem map_sint32_payloadWord {e : List Int} (h : e.all fitsSint32 = true) : (e.map payloadWord).map sint32 = e := by
  induction e with
  | nil => rfl
  | cons x rest ih =>
    simp only [List.all_cons, Bool.and_eq_true] at h
    simp only [List.map_cons, sint32_payloadWord h.1, ih h.2]

end Sys2Proof
end

