-- ==== Sys2Proof/Laws/Memory.lean ====
section
/-! SUPPORT. The laws of the framebuffer space: read after write, the frame of a write, the canonical form is kept,
and equal contents are equal lists. -/

namespace Sys2Proof.Machine.Memory

@[simp] theorem read_nil (a : Nat) : read [] a = 0x00 := rfl

@[simp] theorem wf_nil : wf [] = true := rfl

theorem read_filter_self (m : Memory) (a : Nat) : read (m.filter fun c => c.1 != a) a = 0x00 := by
  induction m with
  | nil => rfl
  | cons c rest ih =>
    by_cases h : c.1 = a <;> simp [h, read, ih]

theorem read_filter_other (m : Memory) {a b : Nat} (hab : b ≠ a) :
    read (m.filter fun c => c.1 != a) b = read m b := by
  induction m with
  | nil => rfl
  | cons c rest ih =>
    by_cases h : c.1 = a
    · have : c.1 ≠ b := fun e => hab (e ▸ h)
      simp [h, read, ih, Ne.symm hab]
    · simp [h, read, ih]

theorem read_place_self {m : Memory} {a : Nat} (v : Byte) (h : ∀ c ∈ m, c.1 ≠ a) :
    read (place a v m) a = v := by
  induction m with
  | nil => simp [place, read]
  | cons c rest ih =>
    have hc : c.1 ≠ a := h c (by simp)
    have ih := ih fun d hd => h d (by simp [hd])
    unfold place
    split <;> simp [read, hc, ih]

theorem read_place_other (m : Memory) {a b : Nat} (v : Byte) (hab : b ≠ a) :
    read (place a v m) b = read m b := by
  induction m with
  | nil => simp [place, read, Ne.symm hab]
  | cons c rest ih =>
    unfold place
    split <;> simp [read, Ne.symm hab, ih]

theorem filter_keys_ne (m : Memory) (a : Nat) : ∀ c ∈ m.filter (fun c => c.1 != a), c.1 ≠ a := by
  intro c hc
  simpa using (List.mem_filter.mp hc).2

/-- A read after a write to the same location gives the byte written. -/
@[simp] theorem read_write_same (m : Memory) (r : Fin 16) (v : Byte) : (m.write r v).read r.val = v := by
  unfold write
  split
  · rename_i h; rw [h]; exact read_filter_self m r.val
  · exact read_place_self v (filter_keys_ne m r.val)

/-- A write leaves every other address alone. -/
theorem read_write_other (m : Memory) (r : Fin 16) (v : Byte) {b : Nat} (h : b ≠ r.val) :
    (m.write r v).read b = m.read b := by
  unfold write
  split
  · exact read_filter_other m h
  · rw [read_place_other _ v h, read_filter_other m h]

theorem read_write (m : Memory) (r q : Fin 16) (v : Byte) :
    (m.write r v).read q.val = if q = r then v else m.read q.val := by
  split
  · rename_i h; rw [h]; exact read_write_same m r v
  · rename_i h; exact read_write_other m r v fun e => h (Fin.ext e)

/-! ### The canonical form -/

theorem wfFrom_mono {m : Memory} {lo lo' : Nat} (hle : lo' ≤ lo) (h : wfFrom lo m = true) :
    wfFrom lo' m = true := by
  cases m with
  | nil => rfl
  | cons c rest =>
    simp only [wfFrom, Bool.and_eq_true, decide_eq_true_eq] at h ⊢
    exact ⟨⟨⟨by omega, h.1.1.2⟩, h.1.2⟩, h.2⟩

theorem wfFrom_filter {m : Memory} {lo : Nat} (a : Nat) (h : wfFrom lo m = true) :
    wfFrom lo (m.filter fun c => c.1 != a) = true := by
  induction m generalizing lo with
  | nil => rfl
  | cons c rest ih =>
    simp only [wfFrom, Bool.and_eq_true, decide_eq_true_eq] at h
    by_cases hc : c.1 = a
    · have := wfFrom_mono (by omega : lo ≤ c.1 + 1) h.2
      simpa [List.filter_cons, hc] using ih this
    · simp only [List.filter_cons, bne_iff_ne, ne_eq, hc, not_false_eq_true, ↓reduceIte, wfFrom,
        Bool.and_eq_true, decide_eq_true_eq]
      exact ⟨h.1, ih h.2⟩

theorem wfFrom_place {m : Memory} {lo a : Nat} {v : Byte} (hlo : lo ≤ a) (ha : a < Config.rows)
    (hv : v ≠ unlisted) (hm : ∀ c ∈ m, c.1 ≠ a) (h : wfFrom lo m = true) :
    wfFrom lo (place a v m) = true := by
  induction m generalizing lo with
  | nil => simp [place, wfFrom, hlo, ha, hv]
  | cons c rest ih =>
    have hc : c.1 ≠ a := hm c (by simp)
    simp only [wfFrom, Bool.and_eq_true, decide_eq_true_eq] at h
    unfold place
    split
    · rename_i hlt
      simp only [wfFrom, Bool.and_eq_true, decide_eq_true_eq]
      exact ⟨⟨⟨hlo, ha⟩, hv⟩, ⟨⟨by omega, h.1.1.2⟩, h.1.2⟩, h.2⟩
    · rename_i hlt
      simp only [wfFrom, Bool.and_eq_true, decide_eq_true_eq]
      exact ⟨h.1, ih (by simp only [ne_eq] at hc; omega) (fun d hd => hm d (by simp [hd])) h.2⟩

/-- A write keeps the canonical form. -/
theorem wf_write {m : Memory} (r : Fin 16) (v : Byte) (h : m.wf = true) : (m.write r v).wf = true := by
  unfold wf write at *
  split
  · exact wfFrom_filter r.val h
  · rename_i hv
    exact wfFrom_place (Nat.zero_le _) r.isLt hv (filter_keys_ne m r.val) (wfFrom_filter r.val h)

theorem read_below {m : Memory} {lo a : Nat} (h : wfFrom lo m = true) (ha : a < lo) : m.read a = 0x00 := by
  induction m generalizing lo with
  | nil => rfl
  | cons c rest ih =>
    simp only [wfFrom, Bool.and_eq_true, decide_eq_true_eq] at h
    have : c.1 ≠ a := by omega
    simp only [read, this, ↓reduceIte]
    exact ih h.2 (by omega)

/-- An address outside the space holds nothing in a canonical framebuffer. -/
theorem read_outside {m : Memory} {lo a : Nat} (h : wfFrom lo m = true) (ha : Config.rows ≤ a) :
    m.read a = 0x00 := by
  induction m generalizing lo with
  | nil => rfl
  | cons c rest ih =>
    simp only [wfFrom, Bool.and_eq_true, decide_eq_true_eq] at h
    have : c.1 ≠ a := by omega
    simp only [read, this, ↓reduceIte]
    exact ih h.2

theorem ext_from {m n : Memory} {lo : Nat} (hm : wfFrom lo m = true) (hn : wfFrom lo n = true)
    (h : ∀ a, m.read a = n.read a) : m = n := by
  induction m generalizing n lo with
  | nil =>
    cases n with
    | nil => rfl
    | cons d ns =>
      simp only [wfFrom, Bool.and_eq_true, decide_eq_true_eq] at hn
      have := h d.1
      simp only [read, unlisted, ↓reduceIte] at this
      exact absurd this.symm hn.1.2
  | cons c ms ih =>
    simp only [wfFrom, Bool.and_eq_true, decide_eq_true_eq] at hm
    cases n with
    | nil =>
      have := h c.1
      simp only [read, unlisted, ↓reduceIte] at this
      exact absurd this hm.1.2
    | cons d ns =>
      simp only [wfFrom, Bool.and_eq_true, decide_eq_true_eq] at hn
      have hkey : c.1 = d.1 := by
        rcases Nat.lt_trichotomy c.1 d.1 with hlt | heq | hgt
        · have := h c.1
          have hd : d.1 ≠ c.1 := by omega
          simp only [read, ↓reduceIte, hd] at this
          rw [read_below hn.2 (by omega)] at this
          exact absurd this hm.1.2
        · exact heq
        · have := h d.1
          have hc : c.1 ≠ d.1 := by omega
          simp only [read, ↓reduceIte, hc] at this
          rw [read_below hm.2 (by omega)] at this
          exact absurd this.symm hn.1.2
      have hval : c.2 = d.2 := by
        have := h c.1
        simpa [read, hkey] using this
      have hcd : c = d := Prod.ext hkey hval
      subst hcd
      congr 1
      refine ih hm.2 hn.2 fun a => ?_
      by_cases ha : c.1 = a
      · rw [read_below hm.2 (by omega), read_below hn.2 (by omega)]
      · simpa [read, ha] using h a

/-- Canonical framebuffers with equal contents are equal lists. -/
theorem eq_of_read_eq {m n : Memory} (hm : m.wf = true) (hn : n.wf = true)
    (h : ∀ r : Fin 16, m.read r.val = n.read r.val) : m = n := by
  refine ext_from hm hn fun a => ?_
  by_cases ha : a < 16
  · exact h ⟨a, ha⟩
  · rw [read_outside hm (by simp only [Config.rows]; omega), read_outside hn (by simp only [Config.rows]; omega)]

end Sys2Proof.Machine.Memory
end

