-- ==== Sys2Proof/Laws/Operands.lean ====
section
/-! SUPPORT. The laws of the operand checks and of the cells of a row byte: what each says in arithmetic, so that no
later proof unfolds one. -/

namespace Sys2Proof.Machine

/-! ### The checks -/

theorem inRange_iff {row col : Int} : inRange row col = true ↔ 0 ≤ row ∧ row < 16 ∧ 0 ≤ col ∧ col < 8 := by
  simp [inRange]

theorem isBit_iff {v : Int} : isBit v = true ↔ v = 0 ∨ v = 1 := by simp [isBit]

theorem validBlk_iff {mode : Int} : validBlk mode = true ↔ 0 ≤ mode ∧ mode ≤ 3 := by simp [validBlk]

theorem validBrt_iff {level : Int} : validBrt level = true ↔ 0 ≤ level ∧ level ≤ 15 := by simp [validBrt]

theorem isShape_iff {m : List (List Int)} : isShape m = true ↔ m.length = 16 ∧ ∀ row ∈ m, row.length = 8 := by
  simp [isShape]

/-- An in-range row operand is the number of the row it names. -/
theorem rowIndex_val {row : Int} (h0 : 0 ≤ row) (h1 : row < 16) : ((rowIndex row).val : Int) = row := by
  simp only [rowIndex, Fin.ofNat]
  omega

@[simp] theorem rowIndex_natCast (r : Fin 16) : rowIndex (r.val : Int) = r := by
  apply Fin.ext
  simp only [rowIndex, Fin.ofNat, Int.toNat_natCast]
  omega

theorem mem_cellEnum {i j : Nat} : (i, j) ∈ cellEnum ↔ i < 16 ∧ j < 8 := by
  simp only [cellEnum, List.mem_map, List.mem_range, Prod.mk.injEq]
  constructor
  · rintro ⟨k, hk, rfl, rfl⟩; omega
  · rintro ⟨hi, hj⟩; exact ⟨i * 8 + j, by omega, by omega, by omega⟩

theorem allBits_iff {m : List (List Int)} :
    allBits m = true ↔ ∀ i j, i < 16 → j < 8 → element m i j = 0 ∨ element m i j = 1 := by
  simp only [allBits, List.all_eq_true, Prod.forall, mem_cellEnum, isBit_iff, and_imp]

/-! ### Cells of a row byte -/

theorem getLsbD_one_shiftLeft {k c : Nat} (hc : c < 8) :
    (0x01#8 <<< k).getLsbD c = decide (c = k) := by
  rw [BitVec.getLsbD_shiftLeft]
  simp only [BitVec.getLsbD_one]
  by_cases h : c < k
  · simp [hc, h, Nat.ne_of_lt h]
  · by_cases hk : c = k
    · simp [hk]; omega
    · have : c - k ≠ 0 := by omega
      simp [hc, h, hk, this]

theorem getLsbD_bitByte_shiftLeft {v : Int} {k c : Nat} (hv : v = 0 ∨ v = 1) (hc : c < 8) :
    (bitByte v <<< k).getLsbD c = decide (c = k ∧ v = 1) := by
  rcases hv with rfl | rfl
  · simp [bitByte]
  · have : bitByte 1 = 0x01#8 := rfl
    rw [this, getLsbD_one_shiftLeft hc]
    simp

/-- Setting a cell of a row byte changes that cell and no other (R79, R81). -/
theorem getLsbD_withCell (old : Byte) {col v : Int} (hv : v = 0 ∨ v = 1) {c : Nat} (hc : c < 8) :
    (withCell old col v).getLsbD c = if c = col.toNat then decide (v = 1) else old.getLsbD c := by
  simp only [withCell, BitVec.getLsbD_or, BitVec.getLsbD_and, BitVec.getLsbD_not, hc, decide_true,
    getLsbD_one_shiftLeft hc, getLsbD_bitByte_shiftLeft hv hc]
  by_cases h : c = col.toNat <;> simp [h]

/-- The cell a GET reads, as a byte (R35, R78). -/
theorem cellByte_eq (rowByte : Byte) (col : Int) :
    cellByte rowByte col = if rowByte.getLsbD col.toNat then 0x01 else 0x00 := by
  unfold cellByte
  have h : (0x01 : Byte) = 1#8 := rfl
  rw [h, BitVec.and_one_eq_setWidth_ofBool_getLsbD, BitVec.getLsbD_ushiftRight, Nat.add_zero]
  cases rowByte.getLsbD col.toNat <;> rfl

theorem getLsbD_foldl_or (f : Nat → Byte) (l : List Nat) (acc : Byte) (c : Nat) :
    (l.foldl (fun a k => a ||| f k) acc).getLsbD c = (acc.getLsbD c || l.any fun k => (f k).getLsbD c) := by
  induction l generalizing acc with
  | nil => simp
  | cons k rest ih => simp [ih, BitVec.getLsbD_or, Bool.or_assoc]

/-- Column `c` of row byte `r` of a matrix of bits is its element there (R85). -/
theorem getLsbD_rowsOf {m : List (List Int)} (hm : allBits m = true) (r : Fin 16) (c : Fin 8) :
    (rowsOf m r).getLsbD c.val = decide (element m r.val c.val = 1) := by
  have hbits := allBits_iff.mp hm
  simp only [rowsOf]
  rw [getLsbD_foldl_or]
  simp only [BitVec.ofNat_eq_ofNat, BitVec.getLsbD_zero, Bool.false_or]
  rw [Bool.eq_iff_iff]
  simp only [List.any_eq_true, List.mem_range, decide_eq_true_eq]
  constructor
  · rintro ⟨k, hk, h⟩
    rw [getLsbD_bitByte_shiftLeft (hbits _ _ r.isLt hk) c.isLt] at h
    simp only [decide_eq_true_eq] at h
    rw [h.1]; exact h.2
  · intro h
    refine ⟨c.val, c.isLt, ?_⟩
    rw [getLsbD_bitByte_shiftLeft (hbits _ _ r.isLt c.isLt) c.isLt]
    simp [h]

/-! ### Command bytes -/

theorem isCommandByte_encBlk (m : Fin 4) : isCommandByte (encBlk m) = true := by revert m; decide

theorem isCommandByte_encBrt (l : Fin 16) : isCommandByte (encBrt l) = true := by revert l; decide

end Sys2Proof.Machine
end

