-- ==== Sys2Proof/Laws/State.lean ====
section
/-! SUPPORT. One lemma per field per update of State, so that no later proof unfolds a record update. -/

namespace Sys2Proof.Machine

/-! ### respond -/

@[simp] theorem respond_buf (st : Status) (d : Byte) (s : State) : (respond st d s).buf = s.buf := rfl
@[simp] theorem respond_mode (st : Status) (d : Byte) (s : State) : (respond st d s).mode = s.mode := rfl
@[simp] theorem respond_rspStatus (st : Status) (d : Byte) (s : State) : (respond st d s).rspStatus = st.code := rfl
@[simp] theorem respond_rspData (st : Status) (d : Byte) (s : State) : (respond st d s).rspData = d := rfl
@[simp] theorem respond_txq (st : Status) (d : Byte) (s : State) : (respond st d s).txq = s.txq := rfl
@[simp] theorem respond_ld (st : Status) (d : Byte) (s : State) : (respond st d s).ld = s.ld := rfl
@[simp] theorem respond_words (st : Status) (d : Byte) (s : State) : (respond st d s).words = s.words := rfl
@[simp] theorem respond_replies (st : Status) (d : Byte) (s : State) : (respond st d s).replies = s.replies := rfl
@[simp] theorem respond_draws (st : Status) (d : Byte) (s : State) : (respond st d s).draws = s.draws := rfl
@[simp] theorem respond_traceBefore (st : Status) (d : Byte) (s : State) : (respond st d s).traceBefore = s.traceBefore := rfl
@[simp] theorem respond_trace (st : Status) (d : Byte) (s : State) : (respond st d s).trace = s.trace := rfl
@[simp] theorem respond_resetIn (st : Status) (d : Byte) (s : State) : (respond st d s).resetIn = s.resetIn := rfl

/-! ### raise -/

@[simp] theorem raise_buf (st : Status) (s : State) : (raise st s).buf = s.buf := rfl
@[simp] theorem raise_mode (st : Status) (s : State) : (raise st s).mode = s.mode := rfl
@[simp] theorem raise_rspStatus (st : Status) (s : State) : (raise st s).rspStatus = st.code := rfl
@[simp] theorem raise_rspData (st : Status) (s : State) : (raise st s).rspData = 0x00 := rfl
@[simp] theorem raise_txq (st : Status) (s : State) : (raise st s).txq = s.txq := rfl
@[simp] theorem raise_ld (st : Status) (s : State) : (raise st s).ld = s.ld := rfl
@[simp] theorem raise_words (st : Status) (s : State) : (raise st s).words = s.words := rfl
@[simp] theorem raise_replies (st : Status) (s : State) : (raise st s).replies = s.replies := rfl
@[simp] theorem raise_draws (st : Status) (s : State) : (raise st s).draws = s.draws := rfl
@[simp] theorem raise_traceBefore (st : Status) (s : State) : (raise st s).traceBefore = s.traceBefore := rfl
@[simp] theorem raise_trace (st : Status) (s : State) : (raise st s).trace = s.trace := rfl
@[simp] theorem raise_resetIn (st : Status) (s : State) : (raise st s).resetIn = s.resetIn := rfl

/-! ### memWrite -/

@[simp] theorem memWrite_buf (r : Fin 16) (v : Byte) (s : State) : (memWrite r v s).buf = s.buf.write r v := rfl
@[simp] theorem memWrite_mode (r : Fin 16) (v : Byte) (s : State) : (memWrite r v s).mode = s.mode := rfl
@[simp] theorem memWrite_rspStatus (r : Fin 16) (v : Byte) (s : State) : (memWrite r v s).rspStatus = s.rspStatus := rfl
@[simp] theorem memWrite_rspData (r : Fin 16) (v : Byte) (s : State) : (memWrite r v s).rspData = s.rspData := rfl
@[simp] theorem memWrite_txq (r : Fin 16) (v : Byte) (s : State) : (memWrite r v s).txq = s.txq := rfl
@[simp] theorem memWrite_ld (r : Fin 16) (v : Byte) (s : State) : (memWrite r v s).ld = s.ld := rfl
@[simp] theorem memWrite_words (r : Fin 16) (v : Byte) (s : State) : (memWrite r v s).words = s.words := rfl
@[simp] theorem memWrite_replies (r : Fin 16) (v : Byte) (s : State) : (memWrite r v s).replies = s.replies := rfl
@[simp] theorem memWrite_draws (r : Fin 16) (v : Byte) (s : State) : (memWrite r v s).draws = s.draws := rfl
@[simp] theorem memWrite_traceBefore (r : Fin 16) (v : Byte) (s : State) : (memWrite r v s).traceBefore = s.traceBefore := rfl
@[simp] theorem memWrite_trace (r : Fin 16) (v : Byte) (s : State) : (memWrite r v s).trace = s.trace := rfl
@[simp] theorem memWrite_resetIn (r : Fin 16) (v : Byte) (s : State) : (memWrite r v s).resetIn = s.resetIn := rfl

/-! ### queueItems -/

@[simp] theorem queueItems_buf (items : List TxItem) (s : State) : (queueItems items s).buf = s.buf := rfl
@[simp] theorem queueItems_mode (items : List TxItem) (s : State) : (queueItems items s).mode = s.mode := rfl
@[simp] theorem queueItems_rspStatus (items : List TxItem) (s : State) : (queueItems items s).rspStatus = s.rspStatus := rfl
@[simp] theorem queueItems_rspData (items : List TxItem) (s : State) : (queueItems items s).rspData = s.rspData := rfl
@[simp] theorem queueItems_txq (items : List TxItem) (s : State) : (queueItems items s).txq = items := rfl
@[simp] theorem queueItems_ld (items : List TxItem) (s : State) : (queueItems items s).ld = s.ld := rfl
@[simp] theorem queueItems_words (items : List TxItem) (s : State) : (queueItems items s).words = s.words := rfl
@[simp] theorem queueItems_replies (items : List TxItem) (s : State) : (queueItems items s).replies = s.replies := rfl
@[simp] theorem queueItems_draws (items : List TxItem) (s : State) : (queueItems items s).draws = s.draws := rfl
@[simp] theorem queueItems_traceBefore (items : List TxItem) (s : State) : (queueItems items s).traceBefore = s.traceBefore := rfl
@[simp] theorem queueItems_trace (items : List TxItem) (s : State) : (queueItems items s).trace = s.trace := rfl
@[simp] theorem queueItems_resetIn (items : List TxItem) (s : State) : (queueItems items s).resetIn = s.resetIn := rfl

/-! ### applyReset -/

@[simp] theorem applyReset_buf (s : State) : (applyReset s).buf = [] := rfl
@[simp] theorem applyReset_mode (s : State) : (applyReset s).mode = .init := rfl
@[simp] theorem applyReset_rspStatus (s : State) : (applyReset s).rspStatus = 0 := rfl
@[simp] theorem applyReset_rspData (s : State) : (applyReset s).rspData = 0x00 := rfl
@[simp] theorem applyReset_txq (s : State) : (applyReset s).txq = resetSequence := rfl
@[simp] theorem applyReset_ld (s : State) : (applyReset s).ld = .none := rfl
@[simp] theorem applyReset_words (s : State) : (applyReset s).words = s.words := rfl
@[simp] theorem applyReset_replies (s : State) : (applyReset s).replies = s.replies := rfl
@[simp] theorem applyReset_draws (s : State) : (applyReset s).draws = s.draws := rfl
@[simp] theorem applyReset_traceBefore (s : State) : (applyReset s).traceBefore = s.transportTrace := rfl
@[simp] theorem applyReset_trace (s : State) : (applyReset s).trace = [] := rfl
@[simp] theorem applyReset_resetIn (s : State) : (applyReset s).resetIn = s.resetIn := rfl

/-! ### takeResetSample -/

@[simp] theorem takeResetSample_buf (s : State) : (takeResetSample s).buf = s.buf := rfl
@[simp] theorem takeResetSample_mode (s : State) : (takeResetSample s).mode = s.mode := rfl
@[simp] theorem takeResetSample_rspStatus (s : State) : (takeResetSample s).rspStatus = s.rspStatus := rfl
@[simp] theorem takeResetSample_rspData (s : State) : (takeResetSample s).rspData = s.rspData := rfl
@[simp] theorem takeResetSample_txq (s : State) : (takeResetSample s).txq = s.txq := rfl
@[simp] theorem takeResetSample_ld (s : State) : (takeResetSample s).ld = s.ld := rfl
@[simp] theorem takeResetSample_words (s : State) : (takeResetSample s).words = s.words := rfl
@[simp] theorem takeResetSample_replies (s : State) : (takeResetSample s).replies = s.replies := rfl
@[simp] theorem takeResetSample_draws (s : State) : (takeResetSample s).draws = s.draws := rfl
@[simp] theorem takeResetSample_traceBefore (s : State) : (takeResetSample s).traceBefore = s.traceBefore := rfl
@[simp] theorem takeResetSample_trace (s : State) : (takeResetSample s).trace = s.trace := rfl
@[simp] theorem takeResetSample_resetIn (s : State) : (takeResetSample s).resetIn = s.resetIn.tail := rfl

/-! ### writeRows -/

@[simp] theorem writeRows_mode (v : Fin 16 → Byte) (s : State) : (writeRows v s).mode = s.mode := rfl
@[simp] theorem writeRows_rspStatus (v : Fin 16 → Byte) (s : State) : (writeRows v s).rspStatus = s.rspStatus := rfl
@[simp] theorem writeRows_rspData (v : Fin 16 → Byte) (s : State) : (writeRows v s).rspData = s.rspData := rfl
@[simp] theorem writeRows_txq (v : Fin 16 → Byte) (s : State) : (writeRows v s).txq = s.txq := rfl
@[simp] theorem writeRows_ld (v : Fin 16 → Byte) (s : State) : (writeRows v s).ld = s.ld := rfl
@[simp] theorem writeRows_words (v : Fin 16 → Byte) (s : State) : (writeRows v s).words = s.words := rfl
@[simp] theorem writeRows_replies (v : Fin 16 → Byte) (s : State) : (writeRows v s).replies = s.replies := rfl
@[simp] theorem writeRows_draws (v : Fin 16 → Byte) (s : State) : (writeRows v s).draws = s.draws := rfl
@[simp] theorem writeRows_traceBefore (v : Fin 16 → Byte) (s : State) : (writeRows v s).traceBefore = s.traceBefore := rfl
@[simp] theorem writeRows_trace (v : Fin 16 → Byte) (s : State) : (writeRows v s).trace = s.trace := rfl
@[simp] theorem writeRows_resetIn (v : Fin 16 → Byte) (s : State) : (writeRows v s).resetIn = s.resetIn := rfl

/-! ### takeReply -/

@[simp] theorem takeReply_buf (s : State) : (takeReply s).buf = s.buf := by
  unfold takeReply; split <;> rfl
@[simp] theorem takeReply_mode (s : State) : (takeReply s).mode = s.mode := by
  unfold takeReply; split <;> rfl
@[simp] theorem takeReply_rspStatus (s : State) : (takeReply s).rspStatus = s.rspStatus := by
  unfold takeReply; split <;> rfl
@[simp] theorem takeReply_rspData (s : State) : (takeReply s).rspData = s.rspData := by
  unfold takeReply; split <;> rfl
@[simp] theorem takeReply_txq (s : State) : (takeReply s).txq = s.txq := by
  unfold takeReply; split <;> rfl
@[simp] theorem takeReply_ld (s : State) : (takeReply s).ld = s.ld := by
  unfold takeReply; split <;> rfl
@[simp] theorem takeReply_words (s : State) : (takeReply s).words = s.words := by
  unfold takeReply; split <;> rfl
@[simp] theorem takeReply_traceBefore (s : State) : (takeReply s).traceBefore = s.traceBefore := by
  unfold takeReply; split <;> rfl
@[simp] theorem takeReply_trace (s : State) : (takeReply s).trace = s.trace := by
  unfold takeReply; split <;> rfl
@[simp] theorem takeReply_resetIn (s : State) : (takeReply s).resetIn = s.resetIn := by
  unfold takeReply; split <;> rfl

/-! ### presentWord -/

@[simp] theorem presentWord_buf (w : Word) (s : State) : (presentWord w s).buf = s.buf := rfl
@[simp] theorem presentWord_mode (w : Word) (s : State) : (presentWord w s).mode = if s.mode = .init then .run else s.mode := rfl
@[simp] theorem presentWord_rspStatus (w : Word) (s : State) : (presentWord w s).rspStatus = s.rspStatus := rfl
@[simp] theorem presentWord_rspData (w : Word) (s : State) : (presentWord w s).rspData = s.rspData := rfl
@[simp] theorem presentWord_txq (w : Word) (s : State) : (presentWord w s).txq = [] := rfl
@[simp] theorem presentWord_ld (w : Word) (s : State) : (presentWord w s).ld = .none := rfl
@[simp] theorem presentWord_words (w : Word) (s : State) : (presentWord w s).words = w :: s.words := rfl
@[simp] theorem presentWord_replies (w : Word) (s : State) : (presentWord w s).replies = s.replies := rfl
@[simp] theorem presentWord_draws (w : Word) (s : State) : (presentWord w s).draws = s.draws := rfl
@[simp] theorem presentWord_traceBefore (w : Word) (s : State) : (presentWord w s).traceBefore = s.traceBefore := rfl
@[simp] theorem presentWord_trace (w : Word) (s : State) : (presentWord w s).trace = s.trace := rfl
@[simp] theorem presentWord_resetIn (w : Word) (s : State) : (presentWord w s).resetIn = releaseReset s.resetIn := rfl

/-! ### The whole trace -/

@[simp] theorem applyReset_transportTrace (s : State) : (applyReset s).transportTrace = s.transportTrace := by
  simp [State.transportTrace]

/-- An item appended to the trace since reset is appended to the whole trace. -/
theorem transportTrace_append {s t : State} {events : Trace} (hb : t.traceBefore = s.traceBefore)
    (ht : t.trace = s.trace ++ events) : t.transportTrace = s.transportTrace ++ events := by
  rw [State.transportTrace, State.transportTrace, hb, ht, List.append_assoc]

end Sys2Proof.Machine
end

