-- ==== Sys2Proof/Laws/Ops.lean ====
section
/-! SUPPORT. One lemma for each shared operation over State, which says once what it does. -/

namespace Sys2Proof.Machine

/-! ### The framebuffer -/

@[simp] theorem memRead_memWrite_same (r : Fin 16) (v : Byte) (s : State) : memRead r (memWrite r v s) = v :=
  Memory.read_write_same s.buf r v

theorem memRead_memWrite_other {r q : Fin 16} (h : q ≠ r) (v : Byte) (s : State) :
    memRead q (memWrite r v s) = memRead q s :=
  Memory.read_write_other s.buf r v fun e => h (Fin.ext e)

theorem memRead_foldl (v : Fin 16 → Byte) (rows : List (Fin 16)) (s : State) (q : Fin 16) :
    memRead q (rows.foldl (fun t r => memWrite r (v r) t) s) = if q ∈ rows then v q else memRead q s := by
  induction rows generalizing s with
  | nil => simp
  | cons r rest ih =>
    rw [List.foldl_cons, ih]
    by_cases hq : q = r
    · subst hq; simp
    · simp [hq, memRead_memWrite_other hq]

theorem mem_allRows (r : Fin 16) : r ∈ allRows := by revert r; decide

/-- After writing every row, each row holds what was written (R83). -/
@[simp] theorem memRead_writeRows (v : Fin 16 → Byte) (s : State) (r : Fin 16) :
    memRead r (writeRows v s) = v r := by
  rw [writeRows, memRead_foldl, if_pos (mem_allRows r)]

theorem wf_foldl (v : Fin 16 → Byte) (rows : List (Fin 16)) (s : State) (h : s.buf.wf = true) :
    (rows.foldl (fun t r => memWrite r (v r) t) s).buf.wf = true := by
  induction rows generalizing s with
  | nil => exact h
  | cons r rest ih => exact ih _ (Memory.wf_write r (v r) h)

/-- Writing every row keeps the canonical form. -/
theorem wf_writeRows (v : Fin 16 → Byte) {s : State} (h : s.buf.wf = true) : (writeRows v s).buf.wf = true :=
  wf_foldl v allRows s h

theorem memRead_eq_of_buf {s t : State} (h : t.buf = s.buf) (r : Fin 16) : memRead r t = memRead r s := by
  rw [memRead, memRead, h]

@[simp] theorem memRead_respond (st : Status) (d : Byte) (s : State) (r : Fin 16) :
    memRead r (respond st d s) = memRead r s := rfl

@[simp] theorem memRead_raise (st : Status) (s : State) (r : Fin 16) : memRead r (raise st s) = memRead r s := rfl

@[simp] theorem memRead_queueItems (items : List TxItem) (s : State) (r : Fin 16) :
    memRead r (queueItems items s) = memRead r s := rfl

/-! ### The guard -/

theorem deadGuard_dead {s : State} (h : s.mode = .dead) (t : State) :
    deadGuard s t = raise .initializationError s := if_pos h

theorem deadGuard_live {s : State} (h : s.mode ≠ .dead) (t : State) : deadGuard s t = t := if_neg h

/-- The guard ends the request with the construction's error in DEAD mode and lets it go on in any other. -/
theorem deadGuard_cases (s t : State) :
    (s.mode = .dead ∧ deadGuard s t = raise .initializationError s) ∨ (s.mode ≠ .dead ∧ deadGuard s t = t) := by
  by_cases h : s.mode = .dead
  · exact .inl ⟨h, deadGuard_dead h t⟩
  · exact .inr ⟨h, deadGuard_live h t⟩

theorem status_code_le (st : Status) : st.code.toNat ≤ 7 := by cases st <;> decide

/-! ### What observation says -/

theorem busy_iff {s : State} : s.busy = true ↔ s.mode = .init ∨ s.txq ≠ [] := by
  simp [State.busy]

theorem not_busy_iff {s : State} : s.busy = false ↔ s.mode ≠ .init ∧ s.txq = [] := by
  cases h : s.busy with
  | true =>
    have := busy_iff.mp h
    simp only [Bool.true_eq_false, ne_eq, false_iff, not_and]
    intro hm hq
    rcases this with h1 | h1
    · exact hm h1
    · exact h1 hq
  | false =>
    have : ¬ (s.mode = .init ∨ s.txq ≠ []) := fun hh => by rw [busy_iff.mpr hh] at h; cases h
    simp only [ne_eq, not_or, not_not] at this
    simp [this.1, this.2]

/-! ### The transport step -/

/-- The last item of the reset sequence, answered ok (R125). -/
theorem txStep_ok_last_init {s : State} {item : TxItem} (hq : s.txq = [item]) (hm : s.mode = .init) :
    txStep .ok s = { s with trace := s.trace ++ [(item, .ok)], txq := [], mode := .run } := by
  simp [txStep, hq, hm]

/-- The last item of a request, answered ok (R101). -/
theorem txStep_ok_last {s : State} {item : TxItem} (hq : s.txq = [item]) (hm : s.mode ≠ .init) :
    txStep .ok s = respond .ok 0x00 { s with trace := s.trace ++ [(item, .ok)], txq := [] } := by
  simp [txStep, hq, hm]

/-- An item that is not the last, answered ok (R101). -/
theorem txStep_ok_more {s : State} {item next : TxItem} {rest : List TxItem} (hq : s.txq = item :: next :: rest) :
    txStep .ok s = { s with trace := s.trace ++ [(item, .ok)], txq := next :: rest } := by
  simp [txStep, hq]

/-- An item of the reset sequence, answered fail (R126). -/
theorem txStep_fail_init {s : State} {item : TxItem} {rest : List TxItem} (hq : s.txq = item :: rest)
    (hm : s.mode = .init) :
    txStep .fail s =
      raise .initializationError { s with trace := s.trace ++ [(item, .fail)], txq := [], mode := .dead } := by
  simp [txStep, hq, hm]

/-- An item of a request, answered fail (R101). -/
theorem txStep_fail {s : State} {item : TxItem} {rest : List TxItem} (hq : s.txq = item :: rest)
    (hm : s.mode ≠ .init) :
    txStep .fail s = raise .transportError { s with trace := s.trace ++ [(item, .fail)], txq := [] } := by
  simp [txStep, hq, hm]

/-- Everything a transport step can do (R101). -/
theorem txStep_cases {s : State} {item : TxItem} {rest : List TxItem} (hq : s.txq = item :: rest) (ans : Answer) :
    (ans = .ok ∧ rest ≠ [] ∧ txStep ans s = { s with trace := s.trace ++ [(item, .ok)], txq := rest }) ∨
    (ans = .ok ∧ rest = [] ∧ s.mode = .init ∧
      txStep ans s = { s with trace := s.trace ++ [(item, .ok)], txq := [], mode := .run }) ∨
    (ans = .ok ∧ rest = [] ∧ s.mode ≠ .init ∧
      txStep ans s = respond .ok 0x00 { s with trace := s.trace ++ [(item, .ok)], txq := [] }) ∨
    (ans = .fail ∧ s.mode = .init ∧ txStep ans s =
      raise .initializationError { s with trace := s.trace ++ [(item, .fail)], txq := [], mode := .dead }) ∨
    (ans = .fail ∧ s.mode ≠ .init ∧
      txStep ans s = raise .transportError { s with trace := s.trace ++ [(item, .fail)], txq := [] }) := by
  cases ans with
  | ok =>
    cases rest with
    | nil =>
      by_cases hm : s.mode = .init
      · exact .inr (.inl ⟨rfl, rfl, hm, txStep_ok_last_init hq hm⟩)
      · exact .inr (.inr (.inl ⟨rfl, rfl, hm, txStep_ok_last hq hm⟩))
    | cons next rest => exact .inl ⟨rfl, by simp, txStep_ok_more hq⟩
  | fail =>
    by_cases hm : s.mode = .init
    · exact .inr (.inr (.inr (.inl ⟨rfl, hm, txStep_fail_init hq hm⟩)))
    · exact .inr (.inr (.inr (.inr ⟨rfl, hm, txStep_fail hq hm⟩)))

/-- A transport step never touches the framebuffer (R101). -/
@[simp] theorem txStep_buf (ans : Answer) (s : State) : (txStep ans s).buf = s.buf := by
  cases hq : s.txq with
  | nil => simp [txStep, hq]
  | cons item rest =>
    rcases txStep_cases hq ans with ⟨_, _, h⟩ | ⟨_, _, _, h⟩ | ⟨_, _, _, h⟩ | ⟨_, _, h⟩ | ⟨_, _, h⟩ <;> rw [h] <;> rfl

/-- A transport step leaves what was emitted before the last reset alone. -/
@[simp] theorem txStep_traceBefore (ans : Answer) (s : State) : (txStep ans s).traceBefore = s.traceBefore := by
  cases hq : s.txq with
  | nil => simp [txStep, hq]
  | cons item rest =>
    rcases txStep_cases hq ans with ⟨_, _, h⟩ | ⟨_, _, _, h⟩ | ⟨_, _, _, h⟩ | ⟨_, _, h⟩ | ⟨_, _, h⟩ <;> rw [h] <;> rfl

/-- A transport step appends its item, with the answer, to the trace (R101). -/
theorem txStep_trace {s : State} {item : TxItem} {rest : List TxItem} (hq : s.txq = item :: rest) (ans : Answer) :
    (txStep ans s).trace = s.trace ++ [(item, ans)] := by
  rcases txStep_cases hq ans with ⟨rfl, _, h⟩ | ⟨rfl, _, _, h⟩ | ⟨rfl, _, _, h⟩ | ⟨rfl, _, h⟩ | ⟨rfl, _, h⟩ <;>
    rw [h] <;> rfl

/-! ### Polling the transport -/

theorem reply_cons {s : State} {r : Option Answer} {rs : List (Option Answer)} (h : s.replies = r :: rs) :
    s.reply = r := by simp [State.reply, h]

theorem takeReply_cons {s : State} {r : Option Answer} {rs : List (Option Answer)} (h : s.replies = r :: rs) :
    takeReply s = { s with replies := rs } := by simp [takeReply, h]

theorem reply_nil {s : State} (h : s.replies = []) : s.reply = Config.transportReply s.draws := by
  simp [State.reply, h]

theorem takeReply_nil {s : State} (h : s.replies = []) : takeReply s = { s with draws := s.draws + 1 } := by
  simp [takeReply, h]

/-- A busy block's step is the transport step on an answer, or nothing but the port's reply taken. -/
theorem pollTransport_cases (s : State) :
    (∃ ans, s.reply = some ans ∧ pollTransport s = txStep ans (takeReply s)) ∨
    (s.reply = none ∧ pollTransport s = takeReply s) := by
  cases h : s.reply with
  | some ans => exact .inl ⟨ans, rfl, by simp [pollTransport, h]⟩
  | none => exact .inr ⟨rfl, by simp [pollTransport, h]⟩

end Sys2Proof.Machine
end

