-- ==== Sys2Proof/Laws/Exec.lean ====
section
/-! SUPPORT. What a request can do, said once for every constructor of `Instr`; invariants and frames cite this and
never unfold a meaning. -/

namespace Sys2Proof.Machine

/-- The statuses a request can write in the step that takes it (R106). -/
def endStatuses : Instr → List Status
  | .encsys _ => [.ok]
  | .encblk _ | .encbrt _ => [.ok, .invalidArgument]
  | .get _ _ => [.ok, .outOfRange, .initializationError]
  | .set _ _ _ => [.ok, .outOfRange, .invalidArgument, .initializationError]
  | .del _ _ => [.unsupportedOperation, .initializationError]
  | .fill _ => [.ok, .invalidArgument, .initializationError]
  | .ldbm (.matrix _) => [.ok, .invalidArgument, .shapeMismatch, .initializationError]
  | .ldbm (.header _ _) => [.shapeMismatch, .initializationError]
  | .flush => [.initializationError]
  | .setblk _ | .setbrt _ => [.invalidArgument, .initializationError]

/-- Everything the meaning of a request can do to a state. -/
inductive Effect (s : State) : Instr → State → Prop where
  /-- It answers OK at once and changes nothing else. -/
  | answered (i : Instr) (d : Byte) (ends : Status.ok ∈ endStatuses i) : Effect s i (respond .ok d s)
  /-- It fails and changes nothing but the response (R110). -/
  | failed (i : Instr) (st : Status) (fails : st ≠ .ok) (ends : st ∈ endStatuses i) : Effect s i (raise st s)
  /-- A SET that passed its checks stores one row (R79). -/
  | storeCell (row col v : Int) (live : s.mode ≠ .dead) (coord : inRange row col = true) (bit : isBit v = true) :
      Effect s (.set row col v)
        (respond .ok 0x00 (memWrite (rowIndex row) (withCell (memRead (rowIndex row) s) col v) s))
  /-- A FILL that passed its check stores every row (R86). -/
  | fillRows (v : Int) (live : s.mode ≠ .dead) (bit : isBit v = true) :
      Effect s (.fill v) (respond .ok 0x00 (writeRows (fun _ => if v = 1 then 0xFF else 0x00) s))
  /-- An LDBM of a matrix that passed its checks stores every row (R89). -/
  | loadRows (m : List (List Int)) (live : s.mode ≠ .dead) (shape : isShape m = true) (bits : allBits m = true) :
      Effect s (.ldbm (.matrix m)) (respond .ok 0x00 (writeRows (rowsOf m) s))
  /-- An LDBM header with a payload starts the collector (R90). -/
  | collect (r c : Fin 256) (some : r.val * c.val ≠ 0) :
      Effect s (.ldbm (.header r c)) { s with ld := .collecting r c [] }
  /-- A FLUSH queues the snapshot (R95). -/
  | snapshot (live : s.mode ≠ .dead) : Effect s .flush (queueItems (flushItems s.buf) s)
  /-- A setter that passed its check queues one raw write of a command byte (R97, R98). -/
  | dispatchBlk (mode : Int) (live : s.mode ≠ .dead) (valid : validBlk mode = true) :
      Effect s (.setblk mode) (queueItems [.raw (encBlk (blinkIndex mode))] s)
  | dispatchBrt (level : Int) (live : s.mode ≠ .dead) (valid : validBrt level = true) :
      Effect s (.setbrt level) (queueItems [.raw (encBrt (levelIndex level))] s)

/-- The matrix of a header without payload has no row of length 8, or no 16 rows: it never has the shape. -/
theorem isShape_replicate_nil (r : Nat) : isShape (List.replicate r []) = false := by
  rw [Bool.eq_false_iff, ne_eq, isShape_iff]
  rintro ⟨hlen, hrow⟩
  rw [List.length_replicate] at hlen
  have := hrow [] (by rw [List.mem_replicate]; exact ⟨by omega, rfl⟩)
  simp at this

theorem loadBitmap_effect (m : List (List Int)) (s : State) : Effect s (.ldbm (.matrix m)) (loadBitmap m s) := by
  unfold loadBitmap
  rcases deadGuard_cases s _ with ⟨_, h⟩ | ⟨live, h⟩ <;> rw [h]
  · exact .failed _ _ (by decide) (by simp [endStatuses])
  · split
    · exact .failed _ _ (by decide) (by simp [endStatuses])
    · split
      · exact .failed _ _ (by decide) (by simp [endStatuses])
      · rename_i h1 h2
        exact .loadRows m live (by simpa using h1) (by simpa using h2)

/-- Every request answers a next state, and that state is one of the effects above (R113: total on terms). -/
theorem exec_effect (i : Instr) (s : State) : ∃ t, exec i s = .next t ∧ Effect s i t := by
  cases i with
  | get row col =>
    refine ⟨_, rfl, ?_⟩
    rcases deadGuard_cases s _ with ⟨_, h⟩ | ⟨_, h⟩ <;> rw [h]
    · exact .failed _ _ (by decide) (by simp [endStatuses])
    · split <;> first | exact .failed _ _ (by decide) (by simp [endStatuses]) | exact .answered _ _ (by simp [endStatuses])
  | set row col v =>
    refine ⟨_, rfl, ?_⟩
    rcases deadGuard_cases s _ with ⟨_, h⟩ | ⟨live, h⟩ <;> rw [h]
    · exact .failed _ _ (by decide) (by simp [endStatuses])
    · split
      · exact .failed _ _ (by decide) (by simp [endStatuses])
      · split
        · exact .failed _ _ (by decide) (by simp [endStatuses])
        · rename_i h1 h2
          exact .storeCell row col v live (by simpa using h1) (by simpa using h2)
  | del row col =>
    refine ⟨_, rfl, ?_⟩
    rcases deadGuard_cases s _ with ⟨_, h⟩ | ⟨_, h⟩ <;> rw [h] <;> exact .failed _ _ (by decide) (by simp [endStatuses])
  | fill v =>
    refine ⟨_, rfl, ?_⟩
    rcases deadGuard_cases s _ with ⟨_, h⟩ | ⟨live, h⟩ <;> rw [h]
    · exact .failed _ _ (by decide) (by simp [endStatuses])
    · split
      · exact .fillRows v live ‹_›
      · exact .failed _ _ (by decide) (by simp [endStatuses])
  | ldbm operand =>
    cases operand with
    | matrix m => exact ⟨_, rfl, loadBitmap_effect m s⟩
    | header r c =>
      refine ⟨_, rfl, ?_⟩
      unfold acceptHeader
      split
      · unfold loadBitmap
        rcases deadGuard_cases s _ with ⟨_, h⟩ | ⟨_, h⟩ <;> rw [h]
        · exact .failed _ _ (by decide) (by simp [endStatuses])
        · simp only [isShape_replicate_nil, Bool.not_false, ↓reduceIte]
          exact .failed _ _ (by decide) (by simp [endStatuses])
      · exact .collect r c ‹_›
  | flush =>
    refine ⟨_, rfl, ?_⟩
    rcases deadGuard_cases s _ with ⟨_, h⟩ | ⟨live, h⟩ <;> rw [h]
    · exact .failed _ _ (by decide) (by simp [endStatuses])
    · exact .snapshot live
  | encsys osc => exact ⟨_, rfl, .answered _ _ (by simp [endStatuses])⟩
  | encblk mode =>
    refine ⟨_, rfl, ?_⟩
    split <;> first | exact .failed _ _ (by decide) (by simp [endStatuses]) | exact .answered _ _ (by simp [endStatuses])
  | encbrt level =>
    refine ⟨_, rfl, ?_⟩
    split <;> first | exact .failed _ _ (by decide) (by simp [endStatuses]) | exact .answered _ _ (by simp [endStatuses])
  | setblk mode =>
    refine ⟨_, rfl, ?_⟩
    rcases deadGuard_cases s _ with ⟨_, h⟩ | ⟨live, h⟩ <;> rw [h]
    · exact .failed _ _ (by decide) (by simp [endStatuses])
    · split
      · exact .dispatchBlk mode live ‹_›
      · exact .failed _ _ (by decide) (by simp [endStatuses])
  | setbrt level =>
    refine ⟨_, rfl, ?_⟩
    rcases deadGuard_cases s _ with ⟨_, h⟩ | ⟨live, h⟩ <;> rw [h]
    · exact .failed _ _ (by decide) (by simp [endStatuses])
    · split
      · exact .dispatchBrt level live ‹_›
      · exact .failed _ _ (by decide) (by simp [endStatuses])

/-- The effect of a request known to answer `t`. -/
theorem effect_of_exec {i : Instr} {s t : State} (h : exec i s = .next t) : Effect s i t := by
  obtain ⟨t', ht', he⟩ := exec_effect i s
  rw [h] at ht'
  cases ht'
  exact he

/-! ### Fields no request writes (R20, R110) -/

section Frame

variable {i : Instr} {s t : State}

theorem Effect.mode (h : Effect s i t) : t.mode = s.mode := by cases h <;> rfl
theorem Effect.words (h : Effect s i t) : t.words = s.words := by cases h <;> rfl
theorem Effect.replies (h : Effect s i t) : t.replies = s.replies := by cases h <;> rfl
theorem Effect.draws (h : Effect s i t) : t.draws = s.draws := by cases h <;> rfl
theorem Effect.traceBefore (h : Effect s i t) : t.traceBefore = s.traceBefore := by cases h <;> rfl
theorem Effect.trace (h : Effect s i t) : t.trace = s.trace := by cases h <;> rfl
theorem Effect.transportTrace (h : Effect s i t) : t.transportTrace = s.transportTrace := by
  rw [State.transportTrace, State.transportTrace, h.traceBefore, h.trace]
theorem Effect.resetIn (h : Effect s i t) : t.resetIn = s.resetIn := by cases h <;> rfl

/-- A request keeps the framebuffer's canonical form. -/
theorem Effect.wf (h : Effect s i t) (hs : s.buf.wf = true) : t.buf.wf = true := by
  cases h with
  | answered | failed | collect | snapshot | dispatchBlk | dispatchBrt => exact hs
  | storeCell => exact Memory.wf_write _ _ hs
  | fillRows v => exact wf_writeRows (fun _ => if v = 1 then 0xFF else 0x00) hs
  | loadRows m => exact wf_writeRows (rowsOf m) hs

end Frame

end Sys2Proof.Machine
end

