-- ==== Sys2Proof/Laws/PerInstr.lean ====
section
/-! SUPPORT. A family of statements made per constructor of `Instr`: every request's first word carries the opcode of
the spec's map (R55). -/

namespace Sys2Proof.Laws.OpcodeMap

/-- The opcode of a request, read off the map of R55. -/
def opcodeOf : Instr → BitVec 4
  | .get _ _ => 0x1
  | .set _ _ _ => 0x2
  | .del _ _ => 0x3
  | .fill _ => 0x4
  | .ldbm _ => 0x5
  | .flush => 0x6
  | .encsys _ => 0x8
  | .encblk _ => 0x9
  | .encbrt _ => 0xA
  | .setblk _ => 0xB
  | .setbrt _ => 0xC

/-- The first word of the request has that opcode and zero reserved bits (R54, R55). -/
def Statement (i : Instr) : Prop :=
  ∃ w rest, encode i = w :: rest ∧ opField w = opcodeOf i ∧ rsvField w = 0

theorem of_mkWord {i : Instr} {a b v : Byte} {rest : List Word} (h : encode i = mkWord (opcodeOf i) a b v :: rest) :
    Statement i :=
  ⟨_, rest, h, opField_mkWord .., rsvField_mkWord ..⟩

theorem get (row col : Int) : Statement (.get row col) := of_mkWord rfl
theorem set (row col v : Int) : Statement (.set row col v) := of_mkWord rfl
theorem del (row col : Int) : Statement (.del row col) := of_mkWord rfl
theorem fill (v : Int) : Statement (.fill v) := of_mkWord rfl
theorem ldbm (operand : LdbmOperand) : Statement (.ldbm operand) := by
  cases operand <;> exact of_mkWord rfl
theorem flush : Statement .flush := of_mkWord rfl
theorem encsys (osc : Bool) : Statement (.encsys osc) := of_mkWord rfl
theorem encblk (mode : Int) : Statement (.encblk mode) := of_mkWord rfl
theorem encbrt (level : Int) : Statement (.encbrt level) := of_mkWord rfl
theorem setblk (mode : Int) : Statement (.setblk mode) := of_mkWord rfl
theorem setbrt (level : Int) : Statement (.setbrt level) := of_mkWord rfl

end Sys2Proof.Laws.OpcodeMap
end

