-- ==== Sys2Proof/Laws/Step.lean ====
section
/-! SUPPORT. What a step can do, said once; and a run unrolled one step at a time. -/

namespace Sys2Proof.Machine

/-! ### The step in each of its situations -/

theorem step_reset {s : State} (h : s.resetAsserted = true) :
    step s = .next (applyReset (takeResetSample s)) := by simp [step, h]

theorem step_busy {s : State} (h : s.resetAsserted = false) (hq : s.txq ≠ []) :
    step s = .next (pollTransport (takeResetSample s)) := by
  have : (!s.txq.isEmpty) = true := by cases hs : s.txq <;> simp_all
  simp [step, h, blockStep, this]

theorem step_serve {s : State} (h : s.resetAsserted = false) (hq : s.txq = []) (hm : s.mode ≠ .init) :
    step s = serveHost (takeResetSample s) := by
  simp [step, h, blockStep, hq, hm]

theorem step_stalled {s : State} (h : s.resetAsserted = false) (hq : s.txq = []) (hm : s.mode = .init) :
    step s = .next (takeResetSample s) := by
  simp [step, h, blockStep, hq, hm]

theorem step_word {s : State} (h : s.resetAsserted = false) (hq : s.txq = []) (hm : s.mode ≠ .init)
    {w : Word} {ws : List Word} (hw : s.words = w :: ws) :
    step s = reqStep w { takeResetSample s with words := ws } := by
  rw [step_serve h hq hm]
  simp [serveHost, hw]

theorem step_no_word {s : State} (h : s.resetAsserted = false) (hq : s.txq = []) (hm : s.mode ≠ .init)
    (hw : s.words = []) : step s = .next (takeResetSample s) := by
  rw [step_serve h hq hm]
  simp [serveHost, hw]

theorem reqStep_collecting {s : State} {r c : Fin 256} {e : List Int} (h : s.ld = .collecting r c e) (w : Word) :
    reqStep w s = payloadStep r c e w s := by simp [reqStep, h]

theorem reqStep_request {s : State} (h : s.ld = .none) {w : Word} {i : Instr} (hd : decode w = .ok i) :
    reqStep w s = exec i s := by simp [reqStep, h, hd]

theorem reqStep_illegal {s : State} (h : s.ld = .none) {w : Word} {why : Illegal} (hd : decode w = .error why) :
    reqStep w s = .next (raise .illegalRequest s) := by simp [reqStep, h, hd]

theorem payloadStep_more {s : State} {r c : Fin 256} {e : List Int} {w : Word}
    (h : e.length + 1 ≠ r.val * c.val) :
    payloadStep r c e w s = .next { s with ld := .collecting r c (e ++ [sint32 w]) } := by
  simp [payloadStep, h]

theorem payloadStep_last {s : State} {r c : Fin 256} {e : List Int} {w : Word}
    (h : e.length + 1 = r.val * c.val) :
    payloadStep r c e w s =
      exec (.ldbm (.matrix (payloadMatrix r.val c.val (e ++ [sint32 w])))) { s with ld := .none } := by
  simp [payloadStep, h]

/-- Everything one step can do. The states in it are the one before with this step's reset sample taken. -/
inductive StepCase (s : State) : State → Prop where
  /-- Reset is applied (R115, R127). -/
  | reset (h : s.resetAsserted = true) : StepCase s (applyReset (takeResetSample s))
  /-- The item in flight is answered (R101). -/
  | answered (h : s.resetAsserted = false) (item : TxItem) (rest : List TxItem) (hq : s.txq = item :: rest)
      (ans : Answer) (hr : s.reply = some ans) : StepCase s (txStep ans (takeReply (takeResetSample s)))
  /-- The item in flight is not answered yet (R138). -/
  | unanswered (h : s.resetAsserted = false) (hq : s.txq ≠ []) (hr : s.reply = none) :
      StepCase s (takeReply (takeResetSample s))
  /-- Nothing to do: no word presented, or the state R99 says is never reached. -/
  | idle (h : s.resetAsserted = false) (hq : s.txq = []) : StepCase s (takeResetSample s)
  /-- A payload word that is not the last (R90). -/
  | payload (h : s.resetAsserted = false) (hq : s.txq = []) (hm : s.mode ≠ .init) (w : Word) (ws : List Word)
      (hw : s.words = w :: ws) (r c : Fin 256) (e : List Int) (hl : s.ld = .collecting r c e)
      (hlen : e.length + 1 ≠ r.val * c.val) :
      StepCase s { takeResetSample s with words := ws, ld := .collecting r c (e ++ [sint32 w]) }
  /-- An illegal word (R61). -/
  | illegal (h : s.resetAsserted = false) (hq : s.txq = []) (hm : s.mode ≠ .init) (w : Word) (ws : List Word)
      (hw : s.words = w :: ws) (hl : s.ld = .none) (why : Illegal) (hd : decode w = .error why) :
      StepCase s (raise .illegalRequest { takeResetSample s with words := ws })
  /-- A request, or the LDBM that the last payload word completes (R90, R104). -/
  | request (h : s.resetAsserted = false) (hq : s.txq = []) (hm : s.mode ≠ .init) (w : Word) (ws : List Word)
      (hw : s.words = w :: ws) (i : Instr) (t : State)
      (he : Effect { takeResetSample s with words := ws, ld := .none } i t) : StepCase s t

/-- Every step answers a next state (R113), and it is one of those above. -/
theorem step_case (s : State) : ∃ t, step s = .next t ∧ StepCase s t := by
  cases h : s.resetAsserted with
  | true => exact ⟨_, step_reset h, .reset h⟩
  | false =>
    cases hq : s.txq with
    | cons item rest =>
      have hne : s.txq ≠ [] := by simp [hq]
      refine ⟨_, step_busy h hne, ?_⟩
      have hrep : (takeResetSample s).reply = s.reply := rfl
      rcases pollTransport_cases (takeResetSample s) with ⟨ans, hr, e⟩ | ⟨hr, e⟩ <;> rw [e]
      · exact .answered h item rest hq ans (hrep ▸ hr)
      · exact .unanswered h hne (hrep ▸ hr)
    | nil =>
      by_cases hm : s.mode = .init
      · exact ⟨_, step_stalled h hq hm, .idle h hq⟩
      · cases hw : s.words with
        | nil => exact ⟨_, step_no_word h hq hm hw, .idle h hq⟩
        | cons w ws =>
          rw [step_word h hq hm hw]
          cases hl : s.ld with
          | none =>
            have hl' : ({ takeResetSample s with words := ws } : State).ld = .none := hl
            cases hd : decode w with
            | error why => exact ⟨_, reqStep_illegal hl' hd, .illegal h hq hm w ws hw hl why hd⟩
            | ok i =>
              rw [reqStep_request hl' hd]
              obtain ⟨t, ht, he⟩ := exec_effect i { takeResetSample s with words := ws }
              refine ⟨t, ht, .request h hq hm w ws hw i t ?_⟩
              have : ({ takeResetSample s with words := ws, ld := .none } : State) =
                  { takeResetSample s with words := ws } := by rw [← hl']
              rw [this]; exact he
          | collecting r c e =>
            have hl' : ({ takeResetSample s with words := ws } : State).ld = .collecting r c e := hl
            rw [reqStep_collecting hl']
            by_cases hlen : e.length + 1 = r.val * c.val
            · rw [payloadStep_last hlen]
              obtain ⟨t, ht, he⟩ := exec_effect
                (.ldbm (.matrix (payloadMatrix r.val c.val (e ++ [sint32 w]))))
                { takeResetSample s with words := ws, ld := .none }
              exact ⟨t, ht, .request h hq hm w ws hw _ t he⟩
            · exact ⟨_, payloadStep_more hlen, .payload h hq hm w ws hw r c e hl hlen⟩

/-- The case of a step known to answer `t`. -/
theorem stepCase_of_step {s t : State} (h : step s = .next t) : StepCase s t := by
  obtain ⟨t', ht', hc⟩ := step_case s
  rw [h] at ht'
  cases ht'
  exact hc

/-! ### Runs -/

theorem run_zero (s : State) : run 0 s = .next s := rfl

theorem run_succ {s t : State} (h : step s = .next t) (n : Nat) : run (n + 1) s = run n t := by
  have h' : core.step s = .next t := h
  change Host.Core.run core (n + 1) s = Host.Core.run core n t
  simp only [Host.Core.run, h']

theorem run_one {s t : State} (h : step s = .next t) : run 1 s = .next t := by
  rw [run_succ h, run_zero]

theorem run_add {s t : State} {n : Nat} (h : run n s = .next t) (k : Nat) :
    run (n + k) s = run k t := by
  induction n generalizing s with
  | zero =>
    rw [run_zero] at h
    cases h
    rw [Nat.zero_add]
  | succ n ih =>
    obtain ⟨u, hu, _⟩ := step_case s
    rw [run_succ hu] at h
    rw [Nat.add_right_comm, run_succ hu]
    exact ih h

/-! ### Sending: the transport steps of a run whose answers are lined up -/

/-- A step of a sending block whose next reply is an answer (R101). -/
theorem step_answered {s : State} {item : TxItem} {rest : List TxItem} {ans : Answer} {rs : List (Option Answer)}
    (hr : s.resetIn = []) (hq : s.txq = item :: rest) (hrep : s.replies = some ans :: rs) :
    step s = .next (txStep ans { s with replies := rs }) := by
  rw [step_busy (by simp [State.resetAsserted, hr]) (by simp [hq])]
  have hrep' : (takeResetSample s).replies = some ans :: rs := by simpa using hrep
  rw [pollTransport, reply_cons hrep']
  simp only [takeReply_cons hrep']
  simp [takeResetSample, hr]

/-- As many answers `ok` as there are items in front of one more: they are emitted in order, and nothing else happens. -/
theorem run_ok_items (items : List TxItem) (item : TxItem) (rest : List TxItem) (s : State)
    (rs : List (Option Answer)) (hr : s.resetIn = []) (hq : s.txq = items ++ item :: rest)
    (hrep : s.replies = List.replicate items.length (some .ok) ++ rs) :
    run items.length s = .next { s with txq := item :: rest, replies := rs,
                                        trace := s.trace ++ items.map fun x => (x, Answer.ok) } := by
  induction items generalizing s with
  | nil =>
    simp only [List.nil_append] at hq
    simp only [List.length_nil, List.replicate_zero, List.nil_append] at hrep
    rw [List.length_nil, run_zero, ← hq, ← hrep]
    simp
  | cons x items ih =>
    obtain ⟨next, more, hmore⟩ : ∃ next more, items ++ item :: rest = next :: more := by
      cases items <;> exact ⟨_, _, rfl⟩
    have hq' : s.txq = x :: next :: more := by rw [hq, List.cons_append, hmore]
    have hrep' : s.replies = some .ok :: (List.replicate items.length (some .ok) ++ rs) := by
      simpa [List.replicate_succ] using hrep
    have hstep := step_answered hr hq' hrep'
    rw [txStep_ok_more (item := x) (next := next) (rest := more) (by exact hq')] at hstep
    rw [List.length_cons, run_succ hstep]
    refine (ih _ (by exact hr) (by exact hmore.symm) (by exact rfl)).trans ?_
    simp

/-! ### The host's word -/

/-- The step after `withFetchWord` runs the row's instruction (log entry 5). -/
theorem step_withFetchWord (s : State) {nbits w : Nat} {i : Instr} (h : decode (tableWord nbits w) = .ok i) :
    step (s.withFetchWord nbits w) = exec i { takeResetSample (s.withFetchWord nbits w) with words := s.words } := by
  have hr : (s.withFetchWord nbits w).resetAsserted = false := by
    simp only [State.withFetchWord, presentWord, State.resetAsserted]
    cases s.resetIn with
    | nil => rfl
    | cons b rest => cases b <;> rfl
  have hm : (s.withFetchWord nbits w).mode ≠ .init := by
    simp only [State.withFetchWord, presentWord]
    split
    · decide
    · assumption
  rw [step_word hr rfl hm (w := tableWord nbits w) (ws := s.words) rfl, reqStep_request rfl h]

end Sys2Proof.Machine
end

