-- ==== Sys2Proof/Laws/Transport.lean ====
section
/-! SUPPORT. What the views of the chip say, item by item: no later proof unfolds their folds. -/

namespace Sys2Proof.Machine

variable (sinceReset : Trace) (a : BitVec 4) (c : Command)

/-! ### Registers -/

@[simp] theorem chipRegister_nil : chipRegister [] a = none := rfl

theorem chipRegister_concat (event : TxItem × Answer) :
    chipRegister (sinceReset ++ [event]) a = chipAfter a (chipRegister sinceReset a) event := by
  simp [chipRegister]

theorem chipRegister_reg_ok (b : BitVec 4) (v : Byte) : chipRegister (sinceReset ++ [(.reg b v, .ok)]) a =
    if b = a then some v else chipRegister sinceReset a := chipRegister_concat ..

theorem chipRegister_reg_fail (b : BitVec 4) (v : Byte) : chipRegister (sinceReset ++ [(.reg b v, .fail)]) a =
    if b.toNat ≤ a.toNat then none else chipRegister sinceReset a := chipRegister_concat ..

theorem chipRegister_raw_ok (b : Byte) :
    chipRegister (sinceReset ++ [(.raw b, .ok)]) a = chipRegister sinceReset a := chipRegister_concat ..

theorem chipRegister_raw_fail (b : Byte) : chipRegister (sinceReset ++ [(.raw b, .fail)]) a =
    if Command.systemSetup.selects b then none else chipRegister sinceReset a := chipRegister_concat ..

/-! ### Configuration -/

@[simp] theorem chipCommand_nil : chipCommand [] c = none := rfl

theorem chipCommand_concat (event : TxItem × Answer) :
    chipCommand (sinceReset ++ [event]) c = commandAfter c (chipCommand sinceReset c) event := by
  simp [chipCommand]

theorem chipCommand_raw_ok (b : Byte) : chipCommand (sinceReset ++ [(.raw b, .ok)]) c =
    if c.selects b then some b else chipCommand sinceReset c := chipCommand_concat ..

theorem chipCommand_raw_fail (b : Byte) : chipCommand (sinceReset ++ [(.raw b, .fail)]) c = none :=
  chipCommand_concat ..

theorem chipCommand_reg (b : BitVec 4) (v : Byte) (ans : Answer) :
    chipCommand (sinceReset ++ [(.reg b v, ans)]) c = chipCommand sinceReset c := by
  rw [chipCommand_concat]
  cases ans <;> rfl

end Sys2Proof.Machine
end

