-- ==== Sys2Proof/Machine/AsmText.lean ====
section
/-! DEFINITION. The text of an assembler line (R68), read as a list of characters into the line of Assembler.lean. What
R68 does not say of the text (blanks, letter case, LOAD's operand) is log entry 11. -/

namespace Sys2Proof.Machine

/-! ### Numbers -/

/-- The value of a digit in a base up to 16. -/
def digitValue (base : Nat) (c : Char) : Option Nat :=
  let n := c.toNat
  let value :=
    if 48 ≤ n ∧ n ≤ 57 then n - 48
    else if 97 ≤ n ∧ n ≤ 102 then n - 87
    else if 65 ≤ n ∧ n ≤ 70 then n - 55
    else base
  if value < base then some value else none

/-- The number some digits spell after the value `acc`. -/
def digitsValue (base : Nat) : Nat → List Char → Option Nat
  | acc, [] => some acc
  | acc, c :: rest => (digitValue base c).bind fun d => digitsValue base (acc * base + d) rest

/-- At least one digit in that base. -/
def numeral (base : Nat) : List Char → Option Nat
  | [] => none
  | c :: rest => digitsValue base 0 (c :: rest)

/-- A decimal number, or a hexadecimal one after `0x` (R68). -/
def natural (text : List Char) : Option Nat :=
  if text.take 2 = ['0', 'x'] then numeral 16 (text.drop 2) else numeral 10 text

/-- A signed number: a minus sign or none in front (R68). -/
def integer (text : List Char) : Option Int :=
  if text.take 1 = ['-'] then (natural (text.drop 1)).map fun n => -(n : Int)
  else (natural text).map fun n => (n : Int)

/-! ### Names -/

/-- The value paired with a name in a table of names. -/
def named {α : Type} : List (List Char × α) → List Char → Option α
  | [], _ => none
  | (name, value) :: rest, text => if name = text then some value else named rest text

/-- The first words of a line (R68). -/
def opNames : List (List Char × AsmOp) :=
  [(['G', 'E', 'T'], .get), (['S', 'E', 'T'], .set), (['D', 'E', 'L'], .del), (['F', 'I', 'L', 'L'], .fill),
   (['L', 'D', 'B', 'M'], .ldbm), (['F', 'L', 'U', 'S', 'H'], .flush)] ++
  [(['E', 'N', 'C', 'S', 'Y', 'S'], .encsys), (['E', 'N', 'C', 'B', 'L', 'K'], .encblk),
   (['E', 'N', 'C', 'B', 'R', 'T'], .encbrt), (['S', 'E', 'T', 'B', 'L', 'K'], .setblk),
   (['S', 'E', 'T', 'B', 'R', 'T'], .setbrt)] ++
  [(['.', 'w', 'o', 'r', 'd'], .word), (['C', 'L', 'R'], .clr), (['L', 'O', 'A', 'D'], .load)]

/-- The operands that are names (R68, R74). -/
def argNames : List (List Char × AsmArg) :=
  [(['f', 'a', 'l', 's', 'e'], .bool false), (['t', 'r', 'u', 'e'], .bool true)] ++
  [(['O', 'F', 'F'], .blink .off), (['2', 'H', 'Z'], .blink .hz2), (['1', 'H', 'Z'], .blink .hz1),
   (['H', 'A', 'L', 'F', '_', 'H', 'Z'], .blink .halfHz)]

/-- One operand: a name, or else a number (R68). -/
def operand (text : List Char) : Option AsmArg :=
  match named argNames text with
  | some arg => some arg
  | none => (integer text).map .num

/-! ### Lines -/

/-- The text without the blanks at its two ends. -/
def trimBlanks (text : List Char) : List Char :=
  ((text.dropWhile (· == ' ')).reverse.dropWhile (· == ' ')).reverse

/-- The pieces between the commas. -/
def splitCommas : List Char → List (List Char)
  | [] => [[]]
  | c :: rest =>
    if c = ',' then [] :: splitCommas rest
    else match splitCommas rest with
      | [] => [[c]]
      | piece :: more => (c :: piece) :: more

/-- Every operand of a list of pieces. -/
def operands : List (List Char) → Option (List AsmArg)
  | [] => some []
  | piece :: rest => (operand (trimBlanks piece)).bind fun arg => (operands rest).map fun more => arg :: more

/-- A line: its first word, a blank, and its operands with commas between them (R68). -/
def parseLine (text : List Char) : Option AsmLine :=
  let line := trimBlanks text
  let rest := trimBlanks (line.dropWhile (· != ' '))
  (named opNames (line.takeWhile (· != ' '))).bind fun op =>
    if rest = [] then some ⟨op, []⟩ else (operands (splitCommas rest)).map fun args => ⟨op, args⟩

/-- The words of one line of text, or `none` where the assembler refuses it. -/
def assembleText (text : List Char) : Option (List Word) := (parseLine text).bind assembleLine

end Sys2Proof.Machine
end

