-- ==== Sys2Proof/Tests/Slice0.lean ====
section
/-! SUPPORT. The model's own tests, with the vectors of spec/95_test_vectors.md as their expected values, and a witness
for every statement that has hypotheses. -/

namespace Sys2Proof.Tests

open Sys2Proof.Machine Sys2Proof.Claims

/-! ### Small states -/

/-- RUN0 of 95_test_vectors.md: after a successful reset sequence. -/
def run0 : State := { State.reset with mode := .run, txq := [] }

/-- RUN0 with a framebuffer. -/
def run0With (buf : Memory) : State := { run0 with buf := buf }

/-- After a failed reset sequence (R126). -/
def dead0 : State := { State.reset with mode := .dead, txq := [], rspStatus := 6 }

/-- The state a request answers, if it answers one. -/
def after (i : Instr) (s : State) : Option State :=
  match exec i s with
  | .next t => some t
  | .fault _ => none
  | .refused _ => none

/-- The state a step answers, if it answers one. -/
def afterStep (s : State) : Option State :=
  match step s with
  | .next t => some t
  | .fault _ => none
  | .refused _ => none

/-- The response and the row `r` after a request. -/
def rspAndRow (i : Instr) (s : State) (r : Fin 16) : Option (BitVec 4 × Byte × Byte) :=
  (after i s).map fun t => (t.rspStatus, t.rspData, memRead r t)

/-- The checkerboard of BK7: `M[i][j] = (i + j) mod 2`. -/
def checkerboard : List (List Int) :=
  (List.range 16).map fun i => (List.range 8).map fun j => (((i + j) % 2 : Nat) : Int)

/-- A 16 by 8 matrix with one value in every cell. -/
def flat (v : Int) : List (List Int) := List.replicate 16 (List.replicate 8 v)

/-! ### WellFormed refuses an ill-formed term, one for each check -/

theorem test_wf_row_too_big : (Instr.get 128 0).wf = false := by decide
theorem test_wf_col_too_small : (Instr.get 0 (-129)).wf = false := by decide
theorem test_wf_set_value : (Instr.set 0 0 200).wf = false := by decide
theorem test_wf_set_row : (Instr.set 200 0 1).wf = false := by decide
theorem test_wf_set_col : (Instr.set 0 128 1).wf = false := by decide
theorem test_wf_del : (Instr.del 0 128).wf = false ∧ (Instr.del (-129) 0).wf = false := by decide
theorem test_wf_fill : (Instr.fill 128).wf = false := by decide
theorem test_wf_encblk : (Instr.encblk (-129)).wf = false := by decide
theorem test_wf_encbrt : (Instr.encbrt 1000).wf = false := by decide
theorem test_wf_setblk : (Instr.setblk 128).wf = false := by decide
theorem test_wf_setbrt : (Instr.setbrt 128).wf = false := by decide
theorem test_wf_ragged : (Instr.ldbm (.matrix [[0], [0, 1]])).wf = false := by decide
theorem test_wf_element : (Instr.ldbm (.matrix [[2147483648]])).wf = false := by decide
theorem test_wf_rows : (Instr.ldbm (.matrix (List.replicate 256 []))).wf = false := by
  simp only [Instr.wf, matrixFits, List.length_replicate, Nat.lt_irrefl, decide_false, Bool.false_and]
theorem test_wf_cols : (Instr.ldbm (.matrix [List.replicate 256 0])).wf = false := by
  simp only [Instr.wf, matrixFits, colCount, List.headD_cons, List.length_replicate, Nat.lt_irrefl, decide_false,
    Bool.and_false, Bool.false_and]
theorem test_wf_bounds : (Instr.set (-128) 127 (-1)).wf = true ∧ (Instr.ldbm (.header 255 255)).wf = true := by decide

/-! ### Decoding: words of 95_test_vectors.md -/

theorem test_decode_get : decode 0x10F07000#32 = .ok (.get 15 7) := by decide
theorem test_decode_get_negative : decode 0x100FF000#32 = .ok (.get 0 (-1)) := by decide
theorem test_decode_set : decode 0x20503010#32 = .ok (.set 5 3 1) := by decide
theorem test_decode_del : decode 0x30FFF000#32 = .ok (.del 15 (-1)) := by decide
theorem test_decode_fill : decode 0x40000FF0#32 = .ok (.fill (-1)) := by decide
theorem test_decode_ldbm : decode 0x50F08000#32 = .ok (.ldbm (.header 15 8)) := by decide
theorem test_decode_flush : decode 0x60000000#32 = .ok .flush := by decide
theorem test_decode_encsys : decode 0x80000000#32 = .ok (.encsys false) := by decide
theorem test_decode_encblk : decode 0x9FF00000#32 = .ok (.encblk (-1)) := by decide
theorem test_decode_encbrt : decode 0xA8000000#32 = .ok (.encbrt (-128)) := by decide
theorem test_decode_setblk : decode 0xB0300000#32 = .ok (.setblk 3) := by decide
theorem test_decode_setbrt : decode 0xC1000000#32 = .ok (.setbrt 16) := by decide
/-- DC1 to DC3. -/
theorem test_decode_reserved : [0x00000000#32, 0x70000000, 0xD0000000, 0xE0000000, 0xF0000000].map decode =
    List.replicate 5 (.error .reservedOpcode) := by decide
/-- DC4, DC5, BK19 with RSV. -/
theorem test_decode_rsv : [0x10000001#32, 0x20000011, 0x51008001].map decode =
    List.replicate 3 (.error .reservedBits) := by decide
/-- CA19, CA20, BK6, BK19, TX5, DC6. -/
theorem test_decode_unused : [0x10000010#32, 0x30000010, 0x40100010, 0x51008010, 0x60100000, 0x90001000].map decode =
    List.replicate 6 (.error .unusedField) := by decide
/-- DC7. -/
theorem test_decode_oscillator : [0x80200000#32, 0x80F00000].map decode =
    List.replicate 2 (.error .oscillatorField) := by decide
/-- BK15: a 2 by 2 matrix, its payload and a word after it. -/
theorem test_decode_request :
    decodeRequest [0x50202000#32, 0x00000001, 0xFFFFFFFF, 0x00000000, 0x00000001, 0x60000000] =
      .ok (.ldbm (.matrix [[1, -1], [0, 1]]), [0x60000000]) := by decide
theorem test_encode_matrix :
    encode (.ldbm (.matrix [[1, -1], [0, 1]])) = [0x50202000#32, 0x00000001, 0xFFFFFFFF, 0x00000000, 0x00000001] := by
  decide
theorem test_encode_setbrt : encode (.setbrt (-1)) = [0xCFF00000#32] := by decide

/-! ### The host's two functions -/

theorem test_table_word : decodeTableWord 32 0x20206010 = some (.set 2 6 1) ∧ decodeTableWord 32 0x70000000 = none := by
  decide
theorem test_fetch_word : afterStep (State.reset.withFetchWord 32 0x20206010) = some (run0With [(2, 0x40)]) := by decide

/-! ### One request -/

/-- CA2. -/
theorem test_get : rspAndRow (.get 0 0) (run0With [(0, 0x01)]) 0 = some (0, 0x01, 0x01) := by decide
/-- P3, steps 6 and 7: the cell beside a set one. -/
theorem test_get_clear_cell : rspAndRow (.get 2 5) (run0With [(2, 0xDF)]) 2 = some (0, 0x00, 0xDF) := by decide
/-- P3, step 6. -/
theorem test_set_clears : after (.set 2 5 0) (run0With [(1, 0xFF), (2, 0xFF)]) =
    some (run0With [(1, 0xFF), (2, 0xDF)]) := by decide
/-- CA9: OutOfRange, not InvalidArgument. -/
theorem test_set_order : rspAndRow (.set 16 0 2) (run0With [(0, 0x01)]) 0 = some (1, 0x00, 0x01) := by decide
/-- CA17. -/
theorem test_del : rspAndRow (.del 16 8) run0 0 = some (4, 0x00, 0x00) := by decide
/-- BK1. -/
theorem test_fill : after (.fill 1) run0 = some (run0With ((List.range 16).map fun r => (r, 0xFF))) := by decide
/-- BK5. -/
theorem test_fill_negative : rspAndRow (.fill (-1)) (run0With [(3, 0x08)]) 3 = some (2, 0x00, 0x08) := by decide
/-- BK7. -/
theorem test_ldbm : after (.ldbm (.matrix checkerboard)) run0 =
    some (run0With ((List.range 16).map fun r => (r, if r % 2 = 0 then 0xAA else 0x55))) := by decide
/-- BK20: ragged, at the term level only. -/
theorem test_ldbm_ragged : rspAndRow (.ldbm (.matrix ((flat 0).set 3 (List.replicate 9 0)))) run0 0 =
    some (3, 0x00, 0x00) := by decide
/-- TX1, the request: the queue is loaded and no response written. -/
theorem test_flush : (after .flush (run0With [(4, 0xAA)])).map (fun t => (t.txq.length, t.txq.getD 4 (.raw 0), t.rspStatus)) =
    some (16, .reg 4 0xAA, 0) := by decide
/-- ENC2. -/
theorem test_encsys : rspAndRow (.encsys true) run0 0 = some (0, 0x21, 0x00) := by decide
/-- ENC6. -/
theorem test_encblk : rspAndRow (.encblk 2) run0 0 = some (0, 0x85, 0x00) := by decide
/-- ENC16, in DEAD mode. -/
theorem test_encbrt : rspAndRow (.encbrt 3) dead0 0 = some (0, 0xE3, 0x00) := by decide
/-- ENC14. -/
theorem test_encbrt_negative : rspAndRow (.encbrt (-1)) run0 0 = some (2, 0x00, 0x00) := by decide
/-- P3, step 2, the request. -/
theorem test_setblk : (after (.setblk 1) run0).map State.txq = some [.raw 0x83] := by decide
/-- TX6, the request. -/
theorem test_setbrt : (after (.setbrt 8) run0).map State.txq = some [.raw 0xE8] := by decide
/-- TX16: in DEAD mode the guard comes first. -/
theorem test_setbrt_dead : (after (.setbrt 16) dead0).map (fun t => (t.rspStatus, t.txq)) = some (6, []) := by decide

/-! ### One step -/

/-- TX8: the item of a setter, answered fail. -/
theorem test_step_fail : (afterStep { run0 with txq := [.raw 0xEF], replies := [some .fail] }).map
    (fun t => (t.rspStatus, t.txq, t.trace)) = some (5, [], [(.raw 0xEF, .fail)]) := by decide
/-- RS2: the first item of the reset sequence, answered fail. -/
theorem test_step_reset_fail : (afterStep { State.reset with replies := [some .fail] }).map
    (fun t => (t.mode, t.rspStatus, t.txq)) = some (.dead, 6, []) := by decide
/-- BK16: a payload word that would spell a request is the last element of a 1 by 1 matrix. -/
theorem test_step_payload :
    (afterStep { run0 with ld := .collecting 1 1 [], words := [0xA0300000] }).map (fun t => (t.rspStatus, t.rspData, t.ld)) =
      some (3, 0x00, .none) := by decide
/-- BK17: the header alone. -/
theorem test_step_header : (afterStep { run0 with words := [0x51008000] }).map (fun t => (t.rspStatus, t.ld)) =
    some (0, .collecting 16 8 []) := by decide
/-- DC8: an illegal word in DEAD mode. -/
theorem test_step_illegal : (afterStep { dead0 with words := [0x70000000] }).map State.rspStatus = some 7 := by decide
/-- RS7: reset while the collector runs. -/
theorem test_step_reset : afterStep { run0With [(1, 0x02)] with ld := .collecting 16 8 [1], resetIn := [true] } =
    some State.reset := by decide
/-- TX17: what the host sees while a flush is in flight. -/
theorem test_observe : ((after .flush { run0 with rspData := 0x01 }).map State.observe) =
    some { busy := true, ready := false, dead := false, rspStatus := 0, rspData := 0x01, trace := [] } := by decide
/-- P2, after step 5a: registers 0 to 3 hold their row and 4 is unknown; U1 of 93_implementation_defined.md leaves 5, which
is not sent, unknown too. -/
theorem test_chip : [0x2#4, 0x3#4, 0x4#4, 0x5#4].map
    (chipRegister [(.reg 5 0x00, .ok), (.reg 2 0xAA, .ok), (.reg 3 0x55, .ok), (.reg 4 0xAA, .fail)]) =
      [some 0xAA, some 0x55, none, none] := by decide
/-- P3, step 2: after a failed raw write the configuration is unknown (R45). -/
theorem test_chip_command : [Command.brightness, .blink].map
    (chipCommand [(.raw 0x81, .ok), (.raw 0xE8, .ok), (.raw 0x83, .fail)]) = [none, none] ∧
    chipCommand [(.raw 0x81, .ok), (.raw 0xE8, .ok)] .brightness = some 0xE8 := by decide
/-- R45: a failed setter leaves what is known of the registers, a failed system setup does not. -/
theorem test_chip_raw_fail : chipRegister [(.reg 5 0x08, .ok), (.raw 0x83, .fail)] 5 = some 0x08 ∧
    chipRegister [(.reg 5 0x08, .ok), (.raw 0x21, .fail)] 5 = none := by decide
/-- R128: a warm reset makes a register unknown that was known. -/
theorem test_chip_reset : (afterStep { run0 with trace := [(.reg 5 0x08, .ok)], resetIn := [true] }).map
    (fun t => (t.transportTrace, chipRegister t.trace 5)) = some ([(.reg 5 0x08, .ok)], none) := by decide
/-- R67. -/
theorem test_record : (TxItem.reg 4 0xAA).record = 0x14AA#13 ∧ (TxItem.raw 0x21).record = 0x0021#13 := by decide

/-! ### The assembler (R68, R87) -/

theorem test_asm_set : assembleText ['S', 'E', 'T', ' ', '1', '5', ',', ' ', '7', ',', ' ', '1'] = some [0x20F07010] := by
  decide
theorem test_asm_blink : assembleText ['E', 'N', 'C', 'B', 'L', 'K', ' ', '1', 'H', 'Z'] = some [0x90200000] := by decide
theorem test_asm_negative : assembleText ['S', 'E', 'T', 'B', 'R', 'T', ' ', '-', '1'] = some [0xCFF00000] := by decide
theorem test_asm_word : assembleText ['.', 'w', 'o', 'r', 'd', ' ', '0', 'x', '7', 'F'] = some [0x0000007F] := by decide
theorem test_asm_clr : assembleText ['C', 'L', 'R'] = some [0x40000000] := by decide
theorem test_asm_does_not_fit : assembleText ['F', 'I', 'L', 'L', ' ', '1', '2', '8'] = none := by decide
theorem test_asm_count : assembleText ['L', 'D', 'B', 'M', ' ', '2', '5', '6', ',', '8'] = none := by decide
theorem test_asm_load : assemble [⟨.load, [.matrix [[1, -1], [0, 1]]]⟩, ⟨.setblk, [.blink .off]⟩] =
    some [0x50202000, 0x00000001, 0xFFFFFFFF, 0x00000000, 0x00000001, 0xB0000000] := by decide

/-! ### Witnesses: for every statement with hypotheses, values that meet them, clause by clause -/

theorem witness_HeaderAndPayloadSpellTheMatrix :
    ([] : List Word).length = (0x00#8).toNat * (0xFF#8).toNat ∧
    [0xA0300000#32].length = (0x01#8).toNat * (0x01#8).toNat ∧ 0 < (0x01#8).toNat := by decide

theorem witness_WordRequestsRoundTrip :
    (∀ r c, Instr.get (-128) 127 ≠ .ldbm (.header r c)) ∧
    (∀ r c, decode 0x60000000#32 ≠ .ok (.ldbm (.header r c))) ∧ decode 0x51008010#32 = .error .unusedField ∧
    (Instr.get (-128) 127).wf = true ∧ (∀ m, Instr.get (-128) 127 ≠ .ldbm (.matrix m)) ∧
    (Instr.ldbm (.header 255 0)).wf = true ∧ (∀ m, Instr.ldbm (.header 255 0) ≠ .ldbm (.matrix m)) :=
  ⟨(by rintro r c ⟨⟩), (by rw [show decode 0x60000000#32 = .ok .flush from by decide]; rintro r c ⟨⟩), by decide,
    by decide, (by rintro m ⟨⟩), by decide, (by rintro m ⟨⟩)⟩

theorem witness_MatrixRequestsRoundTrip :
    (Instr.ldbm (.matrix [])).wf = true ∧ (Instr.ldbm (.matrix [[], []])).wf = true ∧
    (Instr.ldbm (.matrix [[-2147483648, 2147483647]])).wf = true ∧ (Instr.ldbm (.matrix checkerboard)).wf = true := by
  decide

theorem witness_DecodedWordsReencode : decode 0x2FFFFFF0#32 = .ok (.set (-1) (-1) (-1)) := by decide

/-- The first integers beyond each field, on both sides. -/
theorem witness_AssemblerExpandsAndRefuses :
    (Instr.ldbm (.matrix [[1, -1], [0, 1]])).wf = true ∧ (Instr.ldbm (.matrix [[0], [0, 1]])).wf = false ∧
    outside8 (-129) ∧ outside8 128 ∧ outsideCount (-1) ∧ outsideCount 256 ∧ outside32 2147483648 ∧
    outside32 (-2147483649) ∧ (2 : Int) ≠ 0 ∧ (2 : Int) ≠ 1 := by
  unfold outside8 outsideCount outside32
  decide

/-- RUN0 with one word presented. -/
def presenting (w : Word) : State := { run0 with words := [w] }

theorem presents (w : Word) : (presenting w).Presents w [] := ⟨rfl, rfl, rfl, rfl⟩

theorem witness_StepRunsTheDecodedRequest :
    (presenting 0x51008000).Presents 0x51008000 [] ∧ decode 0x51008000#32 = .ok (.ldbm (.header 16 8)) :=
  ⟨presents _, by decide⟩

/-- A word for each clause of R61. -/
theorem witness_IllegalWordsAnswerIllegalRequest :
    illegalFields 0x0 0 0 0 0 ∧ illegalFields 0xF 0xFF 0xFF 0xFF 0xF ∧ illegalFields 0x2 0 0 1 1 ∧
    illegalFields 0x5 0x10 0x08 0x01 0 ∧ illegalFields 0x4 0 1 1 0 ∧ illegalFields 0x6 1 0 0 0 ∧
    illegalFields 0xC 0 0 1 0 ∧ illegalFields 0x8 0x02 0 0 0 ∧
    (presenting (fieldsWord 0x8 0x02 0 0 0)).Presents (fieldsWord 0x8 0x02 0 0 0) [] := by
  refine ⟨?_, ?_, ?_, ?_, ?_, ?_, ?_, ?_, presents _⟩ <;> (unfold illegalFields; decide)

theorem witness_BusyBlockTakesNoWord :
    State.reset.busy = true ∧ State.busy { presenting 0x60000000 with txq := [.raw 0x83] } = true := by decide

/-- A state in the middle of sending. -/
def sending (mode : Mode) (rest : List TxItem) (replies : List (Option Answer)) : State :=
  { run0 with mode := mode, txq := .raw 0x81 :: rest, replies := replies }

theorem sends (mode : Mode) (rest : List TxItem) (replies : List (Option Answer)) :
    (sending mode rest replies).Sends (.raw 0x81) rest := ⟨rfl, rfl⟩

/-- One state for each of the five outcomes. -/
theorem witness_TransportStepFollowsTheAnswer :
    ((sending .run [.raw 0xEF] [some .ok]).replies = some .ok :: [] ∧ [TxItem.raw 0xEF] ≠ []) ∧
    ((sending .init [] [some .ok]).replies = some .ok :: [] ∧ (sending .init [] [some .ok]).mode = .init) ∧
    ((sending .run [] [some .ok]).replies = some .ok :: [] ∧ (sending .run [] [some .ok]).mode ≠ .init) ∧
    ((sending .init [] [some .fail]).replies = some .fail :: [] ∧ (sending .init [] [some .fail]).mode = .init) ∧
    ((sending .run [] [some .fail]).replies = some .fail :: [] ∧ (sending .run [] [some .fail]).mode ≠ .init) ∧
    (sending .run [] [some .fail]).Sends (.raw 0x81) [] := by
  refine ⟨?_, ?_, ?_, ?_, ?_, sends ..⟩ <;> decide

theorem witness_UnansweredItemsWaitAndFreeRepliesDecide :
    (sending .init [] [none]).Sends (.raw 0x81) [] ∧ (sending .init [] [none]).replies = none :: [] ∧
    (sending .run [] []).Sends (.raw 0x81) [] ∧ (sending .run [] []).replies = [] :=
  ⟨sends .., rfl, sends .., rfl⟩

theorem witness_ResetWinsInEveryState :
    State.resetIn { sending .dead [] [] with resetIn := [true, true] } = true :: [true] := rfl

theorem witness_IdleBlockWaitsForAWord :
    dead0.resetAsserted = false ∧ dead0.busy = false ∧ dead0.words = [] := by decide

theorem witness_CommandBytesNameTheirCommand :
    (needsDevice (.encblk 3) || needsDevice (.encblk 3)) = false ∧ (∀ r c, Instr.encblk 3 ≠ .ldbm (.header r c)) ∧
    exec (.encblk 3) run0 = .next { run0 with rspData := 0x87 } :=
  ⟨by decide, (by rintro r c ⟨⟩), rfl⟩

/-- Coordinates at the ends of the ranges, inside and outside. -/
theorem witness_GetAnswersTheCell :
    dead0.mode = .dead ∧ run0.mode ≠ .dead ∧ ¬ coordinate 16 0 ∧ ¬ coordinate 15 8 ∧ ¬ coordinate (-1) 7 ∧
    ¬ coordinate 0 (-1) ∧ coordinate 0 0 ∧ coordinate 15 7 := by
  unfold coordinate; decide

theorem witness_SetChangesExactlyOneCell :
    dead0.mode = .dead ∧ run0.mode ≠ .dead ∧ ¬ coordinate 16 0 ∧ coordinate 15 7 ∧ ¬ ((2 : Int) = 0 ∨ (2 : Int) = 1) ∧
    ¬ ((-1 : Int) = 0 ∨ (-1 : Int) = 1) ∧ ((1 : Int) = 0 ∨ (1 : Int) = 1) := by
  unfold coordinate; decide

theorem witness_SetStoresToItsRowOnly : after (.set 15 7 1) run0 = some (run0With [(15, 0x80)]) := by decide

theorem witness_CellLaws :
    run0.mode = .run ∧ ((15 : Fin 16), (6 : Fin 8)) ≠ (15, 7) ∧ ((16 : Int) ≤ 16 ∨ (8 : Int) ≤ 0) ∧
    ((16 : Int) ≤ 0 ∨ (8 : Int) ≤ 8) := by decide

theorem witness_FillSetsEveryRow :
    dead0.mode = .dead ∧ run0.mode ≠ .dead ∧ ¬ ((2 : Int) = 0 ∨ (2 : Int) = 1) ∧ ((0 : Int) = 0 ∨ (0 : Int) = 1) := by
  decide

theorem sixteenByEight_of {m : List (List Int)} (h : isShape m = true) : sixteenByEight m := isShape_iff.mp h

theorem checkerboard_shape : sixteenByEight checkerboard := sixteenByEight_of (by decide)

theorem checkerboard_bits : onlyBits checkerboard := by unfold onlyBits; decide

/-- A matrix for each clause; the last two have the shape, the first of them a 2 in its last cell. -/
theorem witness_LdbmLoadsTheMatrixOrNothing :
    dead0.mode = .dead ∧ run0.mode ≠ .dead ∧ ¬ sixteenByEight (checkerboard.drop 1) ∧
    (sixteenByEight (checkerboard.set 15 [0, 0, 0, 0, 0, 0, 0, 2]) ∧
      ¬ onlyBits (checkerboard.set 15 [0, 0, 0, 0, 0, 0, 0, 2])) ∧
    sixteenByEight checkerboard ∧ onlyBits checkerboard := by
  refine ⟨rfl, by decide, fun h => ?_, ⟨sixteenByEight_of (by decide), fun h => ?_⟩, checkerboard_shape, checkerboard_bits⟩
  · exact absurd h.1 (by decide)
  · exact absurd (h [0, 0, 0, 0, 0, 0, 0, 2] (by decide) 2 (by decide)) (by decide)

theorem witness_LdbmThenGetReproducesTheMatrix :
    run0.mode = .run ∧ sixteenByEight checkerboard ∧ onlyBits checkerboard :=
  ⟨rfl, checkerboard_shape, checkerboard_bits⟩

theorem witness_LdbmEqualsSetsInAnyOrder :
    run0.mode = .run ∧ sixteenByEight checkerboard ∧ onlyBits checkerboard ∧ sixteenByEight (flat 2) ∧
    ¬ onlyBits (flat 2) ∧ cellEnum.reverse.Perm cellEnum :=
  ⟨rfl, checkerboard_shape, checkerboard_bits, sixteenByEight_of (by decide),
    fun h => absurd (h (List.replicate 8 2) (by decide) 2 (by decide)) (by decide), List.reverse_perm _⟩

theorem witness_LdbmHeaderStartsTheCollector :
    (16 : Fin 256).val * (0 : Fin 256).val = 0 ∧ (255 : Fin 256).val * (255 : Fin 256).val ≠ 0 := by decide

/-- A state that awaits payload. -/
def collecting (e : List Int) : State := { run0 with ld := .collecting 16 8 e, words := [0x00000001] }

theorem witness_PayloadWordsAreElements :
    (collecting []).resetAsserted = false ∧ (collecting []).busy = false ∧
    (collecting []).ld = .collecting 16 8 [] ∧ (collecting []).words = 0x00000001 :: [] ∧
    ([] : List Int).length + 1 < (16 : Fin 256).val * (8 : Fin 256).val ∧
    (collecting (List.replicate 127 0)).resetAsserted = false ∧ (collecting (List.replicate 127 0)).busy = false ∧
    (collecting (List.replicate 127 0)).ld = .collecting 16 8 (List.replicate 127 0) ∧
    (collecting (List.replicate 127 0)).words = 0x00000001 :: [] ∧
    (List.replicate 127 (0 : Int)).length + 1 = (16 : Fin 256).val * (8 : Fin 256).val :=
  ⟨rfl, rfl, rfl, rfl, by decide, rfl, rfl, rfl, rfl, by rw [List.length_replicate]; rfl⟩

/-- The words of a matrix of two elements, then a word that is left. -/
theorem witness_LdbmWordsPerformTheTerm :
    (Instr.ldbm (.matrix [[1, -1]])).wf = true ∧ dead0.busy = false ∧ dead0.ld = .none ∧ dead0.resetIn = [] ∧
    State.words { dead0 with words := [0x50102000, 0x00000001, 0xFFFFFFFF, 0x60000000] } =
      encode (.ldbm (.matrix [[1, -1]])) ++ [0x60000000] := by decide

theorem run0_idle (words : List Word) (replies : List (Option Answer)) :
    State.Idle { run0With [(4, 0xAA)] with words := words, replies := replies } := ⟨rfl, rfl, rfl, rfl⟩

/-- All sixteen answers `ok`; and a `fail` at the first item and at the last. -/
theorem witness_FlushAsOneTransaction :
    State.Idle { run0With [(4, 0xAA)] with words := [0x60000000], replies := List.replicate 16 (some .ok) } ∧
    State.Idle { run0With [(4, 0xAA)] with words := [0x60000000], replies := [some .fail] } ∧
    ([some Answer.fail] = List.replicate 0 (some .ok) ++ some .fail :: [] ∧ 0 < 16) ∧
    State.Idle { run0With [(4, 0xAA)] with
      words := [0x60000000], replies := List.replicate 15 (some .ok) ++ [some .fail] } ∧ 15 < 16 :=
  ⟨run0_idle .., run0_idle .., ⟨rfl, by decide⟩, run0_idle .., by decide⟩

/-- Both setters, with an operand at the end of its range and one beyond it. -/
theorem witness_SettersAsOneTransaction :
    State.Idle { run0With [(4, 0xAA)] with words := [0xB0300000], replies := [some .ok] } ∧
    decode 0xB0300000#32 = .ok (.setblk 3) ∧ decode 0xB0400000#32 = .ok (.setblk 4) ∧
    decode 0xC0F00000#32 = .ok (.setbrt 15) ∧ decode 0xCFF00000#32 = .ok (.setbrt (-1)) ∧
    ((0 : Int) ≤ 3 ∧ (3 : Int) ≤ 3) ∧ ¬ ((0 : Int) ≤ 4 ∧ (4 : Int) ≤ 3) ∧ ((0 : Int) ≤ 15 ∧ (15 : Int) ≤ 15) ∧
    ¬ ((0 : Int) ≤ -1 ∧ (-1 : Int) ≤ 15) :=
  ⟨run0_idle .., by decide, by decide, by decide, by decide, by decide, by decide, by decide, by decide⟩

/-- The state after reset with its nineteen answers lined up. -/
def booting (replies : List (Option Answer)) : State := { State.reset with replies := replies }

theorem witness_ResetSequenceCompletes :
    booting (List.replicate 19 (some .ok)) =
      { State.reset with words := (booting (List.replicate 19 (some .ok))).words,
                         replies := List.replicate 19 (some .ok) ++ [],
                         draws := (booting (List.replicate 19 (some .ok))).draws,
                         traceBefore := (booting (List.replicate 19 (some .ok))).traceBefore,
                         trace := (booting (List.replicate 19 (some .ok))).trace } := rfl

/-- RS2 and RS5: a `fail` at the first item and at the last. -/
theorem witness_ResetSequenceAborts :
    (0 < 19 ∧ booting [some .fail] =
      { State.reset with words := [], replies := List.replicate 0 (some .ok) ++ some .fail :: [], draws := 0,
                         trace := [] }) ∧
    (18 < 19 ∧ booting (List.replicate 18 (some .ok) ++ [some .fail]) =
      { State.reset with words := [], replies := List.replicate 18 (some .ok) ++ some .fail :: [], draws := 0,
                         trace := [] }) := ⟨⟨by decide, rfl⟩, ⟨by decide, rfl⟩⟩

theorem witness_DeadModeRefusesTheDevice :
    [Instr.get 0 0, .set 16 0 2, .del 0 0, .fill 1, .ldbm (.matrix checkerboard), .flush, .setblk 4, .setbrt 16].all
      needsDevice = true ∧ dead0.mode = .dead := by decide

theorem witness_DeadModeLastsUntilReset :
    dead0.mode = .dead ∧ dead0.resetAsserted = false ∧ step dead0 = .next dead0 ∧ dead0.txq = [] :=
  ⟨rfl, rfl, rfl, rfl⟩

/-- The last item of the reset sequence, about to be answered. -/
def lastItem : State := { State.reset with txq := [.raw 0xEF], replies := [some .ok] }

theorem witness_ModeChangesOnlyInTheResetSequence :
    exec (.encsys true) dead0 = .next { dead0 with rspStatus := 0, rspData := 0x21 } ∧
    step lastItem = .next { lastItem with mode := .run, txq := [], replies := [], trace := [(.raw 0xEF, .ok)] } ∧
    lastItem.resetAsserted = false ∧ Mode.run ≠ lastItem.mode := ⟨rfl, rfl, rfl, by decide⟩

theorem witness_AnsweringRequestsFrame :
    onlyAnswers (.get 0 0) = true ∧ exec (.get 0 0) run0 = .next run0 := ⟨rfl, rfl⟩

theorem witness_TransportRequestsFrame :
    usesTransport (.setblk 0) = true ∧ exec (.setblk 0) run0 = .next { run0 with txq := [.raw 0x81] } ∧
    exec (.setblk 4) run0 = .next { run0 with rspStatus := 2 } := ⟨rfl, rfl, rfl⟩

theorem witness_BulkRequestsFrame :
    exec (.fill 0) run0 = .next run0 ∧ exec (.fill 2) run0 = .next { run0 with rspStatus := 2 } ∧
    (2 : BitVec 4) ≠ 0 ∧ exec (.ldbm (.matrix [])) run0 = .next { run0 with rspStatus := 3 } ∧
    exec (.ldbm (.header 16 8)) run0 = .next { run0 with ld := .collecting 16 8 [] } :=
  ⟨rfl, rfl, by decide, rfl, rfl⟩

theorem witness_OnlyStoringRequestsWriteTheFramebuffer :
    writesFramebuffer (.del 3 4) = false ∧ exec (.del 3 4) run0 = .next { run0 with rspStatus := 4 } ∧
    lastItem.resetAsserted = false ∧ lastItem.txq ≠ [] ∧
    step lastItem = .next { lastItem with mode := .run, txq := [], replies := [], trace := [(.raw 0xEF, .ok)] } :=
  ⟨rfl, rfl, rfl, by decide, rfl⟩

/-- From a state whose last response was OK and from one whose last response was a failure; and a request that defers. -/
theorem witness_FailuresChangeOnlyTheResponse :
    exec (.set 16 0 2) run0 = .next { run0 with rspStatus := 1 } ∧ (1 : BitVec 4) ≠ 0 ∧
    exec (.set 16 0 2) { run0 with rspStatus := 5 } = .next { run0 with rspStatus := 1 } ∧
    exec (.setblk 0) { run0 with rspStatus := 5 } = .next { run0 with rspStatus := 5, txq := [.raw 0x81] } ∧
    (5 : BitVec 4) ≠ 0 := ⟨rfl, by decide, rfl, rfl, by decide⟩

theorem witness_StatusesOfEachRequest :
    exec (.set 3 3 2) run0 = .next { run0 with rspStatus := 2 } ∧
    exec (.ldbm (.header 16 8)) run0 = .next { run0 with ld := .collecting 16 8 [] } := ⟨rfl, rfl⟩

theorem witness_RequestsWithoutTransportAreIdempotent :
    usesTransport (.set 2 6 1) = false ∧ (run0With [(0, 0x01), (15, 0x80)]).buf.wf = true ∧
    after (.set 2 6 1) (run0With [(0, 0x01), (15, 0x80)]) = some (run0With [(0, 0x01), (2, 0x40), (15, 0x80)]) := by
  decide

theorem witness_TraceGrowsByTheHeadOfTheQueue :
    step lastItem = .next { lastItem with mode := .run, txq := [], replies := [], trace := [(.raw 0xEF, .ok)] } := rfl

theorem witness_NoStepTakesAWordAndEmitsAnItem :
    step (presenting 0x10000000) = .next run0 ∧ (presenting 0x10000000).words ≠ [] := ⟨rfl, by decide⟩

/-- A flush whose last item is in flight satisfies the invariant, and its step answers a next state. -/
def lastRow : State := { run0With [(15, 0x80)] with txq := [.reg 15 0x80], replies := [some .ok] }

theorem lastRow_inv : lastRow.Inv where
  memory := by decide
  queueBound := by decide
  initQueue := by rintro ⟨⟩
  initRest := by rintro ⟨⟩
  deadRest := by rintro ⟨⟩
  status := by decide
  collector := by rintro r c e ⟨⟩
  snapshot := by
    intro a b h
    have h : TxItem.reg a b = .reg 15 0x80 := List.mem_singleton.mp h
    cases h
    decide
  queueLegal := by decide
  traceLegal := by rintro e ⟨⟩

theorem witness_StepKeepsTheInvariant :
    lastRow.Inv ∧
    step lastRow = .next { run0With [(15, 0x80)] with trace := [(.reg 15 0x80, .ok)] } := ⟨lastRow_inv, rfl⟩

theorem witness_ResetMakesTheChipUnknown :
    State.resetIn { run0 with trace := [(.reg 5 0x08, .ok)], resetIn := [true] } = true :: [] := rfl

theorem witness_CompletedResetSequenceWritesTheChip :
    booting (List.replicate 19 (some .ok)) =
      { State.reset with words := [], replies := List.replicate 19 (some .ok) ++ [], draws := 0, traceBefore := [],
                         trace := [] } := rfl

/-- A register write and a raw write in flight, with each answer; and the system setup, answered fail. -/
theorem witness_AnswersTellOfTheChip :
    lastRow.Sends (.reg 15 0x80) [] ∧ lastRow.replies = some .ok :: [] ∧
    State.Sends { lastRow with replies := [some .fail] } (.reg 15 0x80) [] ∧
    (sending .run [] [some .fail]).Sends (.raw 0x81) [] ∧ (sending .run [] [some .fail]).replies = some .fail :: [] ∧
    (sending .run [] [some .ok]).Sends (.raw 0x81) [] ∧ (sending .run [] [some .ok]).replies = some .ok :: [] ∧
    (booting [some .fail]).Sends (.raw 0x21) resetSequence.tail ∧ (booting [some .fail]).replies = some .fail :: [] ∧
    (0x21#8).extractLsb' 5 3 = 0b001#3 ∧ (0x81#8).extractLsb' 5 3 ≠ 0b001#3 :=
  ⟨⟨rfl, rfl⟩, rfl, ⟨rfl, rfl⟩, sends .., rfl, sends .., rfl, ⟨rfl, rfl⟩, rfl, by decide, by decide⟩

end Sys2Proof.Tests
end

section
/-! PROOFS. The state after reset (R31, R123, R124): its framebuffer, and the items of the reset sequence in the
order in which R124 lists them. -/

namespace Sys2Proof.Machine

open Sys2Proof.Claims

/-- A framebuffer with no listed location reads 0x00 in every row (R123). -/
theorem memRead_of_buf_nil {s : State} (h : s.buf = []) (r : Fin 16) : memRead r s = 0x00 := by
  rw [memRead, h, Memory.read_nil]

theorem range_eq_map_allRows : List.range 16 = allRows.map Fin.val := by decide

/-- The model's flush items are those R94 lists, row by row. -/
theorem flushItems_eq_itemsOf (m : Memory) : flushItems m = itemsOf m := by
  rw [itemsOf, range_eq_map_allRows, List.map_map]
  rfl

/-- The flush items of the framebuffer of all zeros clear the 16 chip registers (R124). -/
theorem itemsOf_nil : itemsOf [] = (List.range 16).map fun i => .reg (BitVec.ofNat 4 i) 0x00 := by
  simp only [itemsOf, Memory.read_nil]

/-- The reset sequence, with its command bytes computed and its flush written out, is R124's list. -/
theorem resetSequence_eq_nineteenItems : resetSequence = nineteenItems := by
  have hSys : encSys true = 0x21 := by decide
  have hBlk : encBlk 0 = 0x81 := by decide
  have hBrt : encBrt 15 = 0xEF := by decide
  rw [resetSequence, nineteenItems, flushItems_eq_itemsOf, itemsOf_nil, hSys, hBlk, hBrt]

theorem nineteenItems_length : nineteenItems.length = 19 := by
  simp [nineteenItems]

/-- Settles O15: the queue and its length by `resetSequence_eq_nineteenItems`, the rows by the empty framebuffer, the
other fields by the definition of the reset state. -/
theorem resetValues : Obligations.ResetValues := by
  have hQueue : State.reset.txq = nineteenItems := resetSequence_eq_nineteenItems
  have hLength : State.reset.txq.length = 19 := by rw [hQueue, nineteenItems_length]
  exact ⟨memRead_of_buf_nil rfl, rfl, hQueue, hLength, rfl, rfl, rfl⟩

end Sys2Proof.Machine
end

section
/-! PROOFS. The record of a transport item (R67): its fields stand apart in its 13 bits, so an item can be told from
its record. -/

namespace Sys2Proof.Machine

/-- Two concatenations of fields of the same widths are equal only where the fields are. -/
theorem append_inj_iff {m n : Nat} {x x' : BitVec m} {y y' : BitVec n} : x ++ y = x' ++ y' ↔ x = x' ∧ y = y' := by
  constructor
  · intro h
    have hHigh := congrArg (BitVec.extractLsb' n m) h
    have hLow := congrArg (BitVec.extractLsb' 0 n) h
    rw [BitVec.extractLsb'_append_eq_left, BitVec.extractLsb'_append_eq_left] at hHigh
    rw [BitVec.extractLsb'_append_eq_right, BitVec.extractLsb'_append_eq_right] at hLow
    exact ⟨hHigh, hLow⟩
  · rintro ⟨rfl, rfl⟩
    rfl

theorem record_raw (b : Byte) : (TxItem.raw b).record = (0#1 ++ 0x0#4 ++ b : BitVec 13) := rfl

theorem record_reg (a : BitVec 4) (b : Byte) : (TxItem.reg a b).record = (1#1 ++ a ++ b : BitVec 13) := rfl

/-- The kind bit tells a raw write from a register write. -/
theorem record_raw_ne_record_reg (b : Byte) (a : BitVec 4) (c : Byte) :
    (TxItem.raw b).record ≠ (TxItem.reg a c).record := by
  rw [record_raw, record_reg, Ne, append_inj_iff, append_inj_iff]
  rintro ⟨⟨hKind, -⟩, -⟩
  exact absurd hKind (by decide)

/-- The kind bit separates the two kinds; within a kind the address and the data are fields of the record. -/
theorem record_injective : Function.Injective TxItem.record := by
  intro x y h
  cases x with
  | raw b =>
    cases y with
    | raw c =>
      rw [record_raw, record_raw, append_inj_iff] at h
      rw [h.2]
    | reg a c => exact absurd h (record_raw_ne_record_reg b a c)
  | reg a b =>
    cases y with
    | raw c => exact absurd h.symm (record_raw_ne_record_reg c a b)
    | reg a' c =>
      rw [record_reg, record_reg, append_inj_iff, append_inj_iff] at h
      obtain ⟨⟨-, hAddr⟩, hData⟩ := h
      rw [hAddr, hData]

/-- Settles O8: the two layouts are the record's definition, the last part is `record_injective`. -/
theorem transportRecordsNameTheirItems : Obligations.TransportRecordsNameTheirItems :=
  ⟨record_raw, record_reg, fun _ _ h => record_injective h⟩

end Sys2Proof.Machine
end

section
/-! PROOFS. Illegal words (R61): each defect makes the decoder answer an error; a word it answers so stands alone on the
port, and the step that takes it only writes IllegalRequest. -/

namespace Sys2Proof

open Sys2Proof.Claims

/-! ### The decoder on a word with one of R61's defects -/

section Defects

variable {op : BitVec 4} {a b v : Byte}

theorem unusedZero_of_eq_false {zero : Bool} (h : zero = false) (i : Instr) :
    unusedZero zero i = .error .unusedField := by
  subst h
  rfl

theorem both_zero_eq_false {x y : Byte} (h : x ≠ 0 ∨ y ≠ 0) : (x == 0 && y == 0) = false := by
  rwa [Bool.and_eq_false_iff, beq_eq_false_iff_ne, beq_eq_false_iff_ne]

/-- GET, DEL and an LDBM header take no field V (R56). -/
theorem decode_unused_v (hop : op ∈ [0x1#4, 0x3#4, 0x5#4]) (hv : v ≠ 0) :
    decode (mkWord op a b v) = .error .unusedField := by
  have hz : (v == 0) = false := beq_false_of_ne hv
  simp only [List.mem_cons, List.not_mem_nil, or_false] at hop
  rcases hop with rfl | rfl | rfl
  · exact (decode_get a b v).trans (unusedZero_of_eq_false hz _)
  · exact (decode_del a b v).trans (unusedZero_of_eq_false hz _)
  · exact (decode_ldbm a b v).trans (unusedZero_of_eq_false hz _)

/-- FILL takes neither field A nor field B (R56). -/
theorem decode_fill_unused (h : a ≠ 0 ∨ b ≠ 0) : decode (mkWord 0x4 a b v) = .error .unusedField := by
  rw [decode_fill, unusedZero_of_eq_false (both_zero_eq_false h)]

/-- FLUSH takes no field at all (R56). -/
theorem decode_flush_unused (h : a ≠ 0 ∨ b ≠ 0 ∨ v ≠ 0) : decode (mkWord 0x6 a b v) = .error .unusedField := by
  have hz : (a == 0 && b == 0 && v == 0) = false := by
    rcases or_assoc.mpr h with hab | hv
    · rw [both_zero_eq_false hab, Bool.false_and]
    · rw [beq_false_of_ne hv, Bool.and_false]
  rw [decode_flush, unusedZero_of_eq_false hz]

/-- The five requests with the one operand A take neither field B nor field V (R56). -/
theorem decode_unused_bv (hop : op ∈ [0x8#4, 0x9#4, 0xA#4, 0xB#4, 0xC#4]) (h : b ≠ 0 ∨ v ≠ 0) :
    decode (mkWord op a b v) = .error .unusedField := by
  have hz := both_zero_eq_false h
  simp only [List.mem_cons, List.not_mem_nil, or_false] at hop
  rcases hop with rfl | rfl | rfl | rfl | rfl
  · exact (decode_encsys a b v).trans (if_neg (ne_true_of_eq_false hz))
  · exact (decode_encblk a b v).trans (unusedZero_of_eq_false hz _)
  · exact (decode_encbrt a b v).trans (unusedZero_of_eq_false hz _)
  · exact (decode_setblk a b v).trans (unusedZero_of_eq_false hz _)
  · exact (decode_setbrt a b v).trans (unusedZero_of_eq_false hz _)

/-- ENCSYS with an A that is no Boolean is illegal, for that or for its unused fields (R58). -/
theorem decode_encsys_oscillator (h0 : a ≠ 0) (h1 : a ≠ 1) : ∃ why, decode (mkWord 0x8 a b v) = .error why := by
  rw [decode_encsys, if_neg h0, if_neg h1]
  cases b == 0 && v == 0
  · exact ⟨.unusedField, rfl⟩
  · exact ⟨.oscillatorField, rfl⟩

end Defects

/-- A word with one of R61's defects is answered by the decoder with an error: RSV first, then clause by clause. -/
theorem decode_error_of_illegalFields {op : BitVec 4} {a b v : Byte} {rsv : BitVec 4}
    (h : illegalFields op a b v rsv) : ∃ why, decode (fieldsWord op a b v rsv) = .error why := by
  by_cases hrsv : rsv = 0
  · subst hrsv
    change ∃ why, decode (mkWord op a b v) = .error why
    rcases h with hop | hne | ⟨hop, hv⟩ | ⟨rfl, hab⟩ | ⟨rfl, habv⟩ | ⟨hop, hbv⟩ | ⟨rfl, h0, h1⟩
    · exact ⟨_, decode_reservedOpcode a b v hop⟩
    · exact absurd rfl hne
    · exact ⟨_, decode_unused_v hop hv⟩
    · exact ⟨_, decode_fill_unused hab⟩
    · exact ⟨_, decode_flush_unused habv⟩
    · exact ⟨_, decode_unused_bv hop hbv⟩
    · exact decode_encsys_oscillator h0 h1
  · exact ⟨_, decode_reservedBits a b v op hrsv⟩

/-- An illegal word consumes no payload (R60, R61). -/
theorem requestLength_of_decode_error {w : Word} {why : Illegal} (h : decode w = .error why) :
    requestLength w = 1 := by
  simp [requestLength, payloadLength, h]

end Sys2Proof

namespace Sys2Proof.Machine

open Sys2Proof.Claims

/-- The step that takes the first word of a request is the request step on it. -/
theorem step_of_presents {s : State} {w : Word} {ws : List Word} (h : s.Presents w ws) :
    step s = reqStep w (taken s ws) := by
  obtain ⟨hmode, hqueue⟩ := not_busy_iff.mp h.notBusy
  exact step_word h.noReset hqueue hmode h.presented

/-- An illegal word is answered with IllegalRequest and datum 0x00, and nothing else changes (R61). -/
theorem step_illegalWord {s : State} {w : Word} {ws : List Word} {why : Illegal} (h : s.Presents w ws)
    (hd : decode w = .error why) : step s = .next (answer (taken s ws) 7 0x00) := by
  have hld : (taken s ws).ld = .none := h.collector
  rw [step_of_presents h, reqStep_illegal hld hd]
  rfl

/-- Settles O10: by `decode_error_of_illegalFields` the word decodes to an error, and its three consequences are lemmas
about such words. -/
theorem illegalWordsAnswerIllegalRequest : Obligations.IllegalWordsAnswerIllegalRequest := by
  intro op a b v rsv h
  obtain ⟨why, hd⟩ := decode_error_of_illegalFields h
  refine ⟨?_, requestLength_of_decode_error hd, fun s ws hs => step_illegalWord hs hd⟩
  rw [hd]
  rfl

end Sys2Proof.Machine
end

section
/-! PROOFS. The command encoder's requests (R70 to R72, R75): the byte each answers, as a formula over the integer
operand; and their words, which carry that operand in field A (R56 to R58). -/

namespace Sys2Proof.Machine

open Sys2Proof.Claims

/-! ### The bytes the encoder answers -/

/-- A valid blink operand is the number of the mode it names (R76). -/
theorem blinkIndex_val {mode : Int} (h : 0 ≤ mode ∧ mode ≤ 3) : ((blinkIndex mode).val : Int) = mode := by
  simp only [blinkIndex, Fin.ofNat]
  omega

/-- A valid brightness operand is the number of the level it names (R76). -/
theorem levelIndex_val {level : Int} (h : 0 ≤ level ∧ level ≤ 15) : ((levelIndex level).val : Int) = level := by
  simp only [levelIndex, Fin.ofNat]
  omega

/-- The blink byte of a valid operand, over the integer (R71). -/
theorem encBlk_blinkIndex {mode : Int} (h : 0 ≤ mode ∧ mode ≤ 3) :
    encBlk (blinkIndex mode) = 0x80 ||| 0x01 ||| (BitVec.ofInt 8 mode <<< 1) := by
  have hmode : BitVec.ofNat 8 (blinkIndex mode).val = BitVec.ofInt 8 mode := by
    rw [← BitVec.ofInt_natCast, blinkIndex_val h]
  rw [encBlk, hmode]
  rfl

/-- The brightness byte of a valid operand, over the integer (R72). -/
theorem encBrt_levelIndex {level : Int} (h : 0 ≤ level ∧ level ≤ 15) :
    encBrt (levelIndex level) = 0xE0 ||| BitVec.ofInt 8 level := by
  rw [encBrt, ← BitVec.ofInt_natCast, levelIndex_val h]

/-! ### The requests -/

/-- One of the four blink modes is answered with its byte, in every mode of the block (R71, R75). -/
theorem exec_encblk_valid {mode : Int} (h : 0 ≤ mode ∧ mode ≤ 3) (s : State) :
    exec (.encblk mode) s = .next (answer s 0 (0x80 ||| 0x01 ||| (BitVec.ofInt 8 mode <<< 1))) := by
  change execEncblk mode s = _
  rw [execEncblk, if_pos (validBlk_iff.mpr h), encBlk_blinkIndex h]
  rfl

/-- Any other integer is InvalidArgument (R71). -/
theorem exec_encblk_invalid {mode : Int} (h : ¬(0 ≤ mode ∧ mode ≤ 3)) (s : State) :
    exec (.encblk mode) s = .next (answer s 2 0x00) := by
  change execEncblk mode s = _
  rw [execEncblk, if_neg (mt validBlk_iff.mp h)]
  rfl

/-- One of the sixteen levels is answered with its byte, in every mode of the block (R72, R75). -/
theorem exec_encbrt_valid {level : Int} (h : 0 ≤ level ∧ level ≤ 15) (s : State) :
    exec (.encbrt level) s = .next (answer s 0 (0xE0 ||| BitVec.ofInt 8 level)) := by
  change execEncbrt level s = _
  rw [execEncbrt, if_pos (validBrt_iff.mpr h), encBrt_levelIndex h]
  rfl

/-- Any other integer is InvalidArgument (R72). -/
theorem exec_encbrt_invalid {level : Int} (h : ¬(0 ≤ level ∧ level ≤ 15)) (s : State) :
    exec (.encbrt level) s = .next (answer s 2 0x00) := by
  change execEncbrt level s = _
  rw [execEncbrt, if_neg (mt validBrt_iff.mp h)]
  rfl

/-! ### Their words -/

/-- The obligations' word with RSV zero is the encoder's word (R54). -/
theorem fieldsWord_eq_mkWord (op : BitVec 4) (a b v : Byte) : fieldsWord op a b v 0 = mkWord op a b v := rfl

/-- The oscillator bit is field A (R58). -/
theorem decode_encsys_bit (osc : Bool) :
    decode (fieldsWord 0x8 (if osc then 0x01 else 0x00) 0 0 0) = .ok (.encsys osc) := by
  rw [fieldsWord_eq_mkWord, decode_encsys]
  cases osc <;> rfl

/-- The blink mode is the signed field A (R57). -/
theorem decode_encblk_word (a : Byte) : decode (fieldsWord 0x9 a 0 0 0) = .ok (.encblk a.toInt) := by
  rw [fieldsWord_eq_mkWord, decode_encblk]
  exact unusedZero_eq_ok.mpr ⟨rfl, rfl⟩

/-- The brightness level is the signed field A (R57). -/
theorem decode_encbrt_word (a : Byte) : decode (fieldsWord 0xA a 0 0 0) = .ok (.encbrt a.toInt) := by
  rw [fieldsWord_eq_mkWord, decode_encbrt]
  exact unusedZero_eq_ok.mpr ⟨rfl, rfl⟩

/-! ### The three obligations -/

/-- Settles O18: the answer is ENCSYS's definition, its two words are `decode_encsys_bit`, and with any other A the
decoder answers an error. -/
theorem encsysAnswersTheSetupByte : Obligations.EncsysAnswersTheSetupByte := by
  refine ⟨fun _ _ => rfl, decode_encsys_bit false, decode_encsys_bit true, fun a h0 h1 => ?_⟩
  obtain ⟨why, hd⟩ := decode_encsys_oscillator (b := 0) (v := 0) h0 h1
  rw [fieldsWord_eq_mkWord, hd]
  rfl

/-- Settles O19, by whether the integer is one of the four modes. -/
theorem encblkAnswersTheBlinkByte : Obligations.EncblkAnswersTheBlinkByte := by
  refine ⟨fun mode s => ?_, decode_encblk_word⟩
  split
  · next h => exact exec_encblk_valid h s
  · next h => exact exec_encblk_invalid h s

/-- Settles O20, by whether the integer is one of the sixteen levels. -/
theorem encbrtAnswersTheBrightnessByte : Obligations.EncbrtAnswersTheBrightnessByte := by
  refine ⟨fun level s => ?_, decode_encbrt_word⟩
  split
  · next h => exact exec_encbrt_valid h s
  · next h => exact exec_encbrt_invalid h s

end Sys2Proof.Machine
end

section
/-! PROOFS. Cell access (R77 to R81): what GET, SET and DEL answer in each case, the cells after a successful SET, and
their words, which carry row, column and value in the signed fields A, B and V (R56, R57). -/

namespace Sys2Proof.Machine

open Sys2Proof.Claims

/-! ### Coordinates and answers -/

/-- The model's range check is R77's. -/
theorem inRange_iff_coordinate {row col : Int} : inRange row col = true ↔ coordinate row col := inRange_iff

/-- Every row and column number is a coordinate. -/
theorem coordinate_natCast (r : Fin 16) (c : Fin 8) : coordinate (r.val : Int) (c.val : Int) := by
  unfold coordinate
  omega

/-- A row or column beyond the last is none (R77). -/
theorem not_coordinate_of_beyond {row col : Int} (h : 16 ≤ row ∨ 8 ≤ col) : ¬ coordinate row col := by
  rintro ⟨-, hrow, -, hcol⟩
  omega

/-- Being the addressed cell, over the integers and over the indices the model stores at. -/
theorem natCast_eq_iff_of_coordinate {row col : Int} (h : coordinate row col) (r : Fin 16) (c : Fin 8) :
    (r.val : Int) = row ∧ (c.val : Int) = col ↔ r = rowIndex row ∧ c.val = col.toNat := by
  obtain ⟨hrow0, hrow, hcol0, -⟩ := h
  have hindex := rowIndex_val hrow0 hrow
  rw [Fin.ext_iff]
  omega

/-- A response changes no cell. -/
@[simp] theorem cell_answer (s : State) (status : BitVec 4) (data : Byte) (r : Fin 16) (c : Fin 8) :
    (answer s status data).cell r c = s.cell r c := rfl

/-- RUN mode is not DEAD mode, so the guard lets the request go on. -/
theorem live_of_run {s : State} (h : s.mode = .run) : s.mode ≠ .dead := by
  rw [h]
  decide

/-! ### GET -/

/-- In DEAD mode GET is answered with InitializationError, whatever its coordinate (R78). -/
theorem exec_get_dead {s : State} (h : s.mode = .dead) (row col : Int) :
    exec (.get row col) s = .next (answer s 6 0x00) := by
  change execGet row col s = _
  rw [execGet, deadGuard_dead h]
  rfl

/-- Out of range, GET is answered with OutOfRange (R78). -/
theorem exec_get_outOfRange {s : State} {row col : Int} (h : s.mode ≠ .dead) (hc : ¬ coordinate row col) :
    exec (.get row col) s = .next (answer s 1 0x00) := by
  change execGet row col s = _
  rw [execGet, deadGuard_live h, if_neg (mt inRange_iff_coordinate.mp hc)]
  rfl

/-- GET of a cell is answered with its bit (R78). -/
theorem exec_get_cell {s : State} (h : s.mode ≠ .dead) (r : Fin 16) (c : Fin 8) :
    exec (.get (r.val : Int) (c.val : Int)) s = .next (answer s 0 (if s.cell r c then 0x01 else 0x00)) := by
  change execGet _ _ s = _
  rw [execGet, deadGuard_live h, if_pos (inRange_iff_coordinate.mpr (coordinate_natCast r c)), cellByte_eq,
    rowIndex_natCast, Int.toNat_natCast]
  rfl

/-! ### SET -/

/-- The state with one cell stored: the write of a SET that passed its checks (R79). -/
def storeCell (row col v : Int) (s : State) : State :=
  memWrite (rowIndex row) (withCell (memRead (rowIndex row) s) col v) s

/-- In DEAD mode SET is answered with InitializationError, whatever its operands (R79). -/
theorem exec_set_dead {s : State} (h : s.mode = .dead) (row col v : Int) :
    exec (.set row col v) s = .next (answer s 6 0x00) := by
  change execSet row col v s = _
  rw [execSet, deadGuard_dead h]
  rfl

/-- Out of range, SET is answered with OutOfRange, whatever its value (R79, R108). -/
theorem exec_set_outOfRange {s : State} {row col : Int} (h : s.mode ≠ .dead) (hc : ¬ coordinate row col) (v : Int) :
    exec (.set row col v) s = .next (answer s 1 0x00) := by
  have hrange : inRange row col = false := Bool.eq_false_iff.mpr (mt inRange_iff_coordinate.mp hc)
  change execSet row col v s = _
  rw [execSet, deadGuard_live h, hrange]
  rfl

/-- In range, SET of what is no bit is answered with InvalidArgument (R79). -/
theorem exec_set_invalid {s : State} {row col v : Int} (h : s.mode ≠ .dead) (hc : coordinate row col)
    (hv : ¬ (v = 0 ∨ v = 1)) : exec (.set row col v) s = .next (answer s 2 0x00) := by
  have hbit : isBit v = false := Bool.eq_false_iff.mpr (mt isBit_iff.mp hv)
  change execSet row col v s = _
  rw [execSet, deadGuard_live h, inRange_iff_coordinate.mpr hc, hbit]
  rfl

/-- In range, SET of a bit stores the cell and is answered with OK (R79). -/
theorem exec_set_stores {s : State} {row col v : Int} (h : s.mode ≠ .dead) (hc : coordinate row col)
    (hv : v = 0 ∨ v = 1) : exec (.set row col v) s = .next (answer (storeCell row col v s) 0 0x00) := by
  change execSet row col v s = _
  rw [execSet, deadGuard_live h, inRange_iff_coordinate.mpr hc, isBit_iff.mpr hv]
  rfl

/-- The row a cell is stored to takes it, every other row stays. -/
theorem memRead_storeCell (row col v : Int) (s : State) (r : Fin 16) :
    memRead r (storeCell row col v s) = if r = rowIndex row then withCell (memRead r s) col v else memRead r s := by
  rw [storeCell]
  split
  · next h => rw [h, memRead_memWrite_same]
  · next h => exact memRead_memWrite_other h _ s

/-- The addressed cell takes the value, every other cell keeps its own (R79, R81). -/
theorem cell_storeCell {row col v : Int} (hc : coordinate row col) (hv : v = 0 ∨ v = 1) (s : State) (r : Fin 16)
    (c : Fin 8) : (storeCell row col v s).cell r c =
      if (r.val : Int) = row ∧ (c.val : Int) = col then decide (v = 1) else s.cell r c := by
  simp only [natCast_eq_iff_of_coordinate hc, State.cell, memRead_storeCell]
  by_cases hr : r = rowIndex row
  · simp only [hr, true_and, if_true, getLsbD_withCell _ hv c.isLt]
  · simp only [hr, false_and, if_false]

/-- A Boolean operand is a bit (R11). -/
theorem boolOperand_bit (v : Bool) : boolOperand v = 0 ∨ boolOperand v = 1 := by
  cases v
  · exact .inl rfl
  · exact .inr rfl

@[simp] theorem decide_boolOperand_eq_one (v : Bool) : decide (boolOperand v = 1) = v := by cases v <;> rfl

/-- After a Boolean is stored in a cell, the cell holds it (R81). -/
theorem cell_storeCell_same (s : State) (r : Fin 16) (c : Fin 8) (v : Bool) :
    (storeCell (r.val : Int) (c.val : Int) (boolOperand v) s).cell r c = v := by
  rw [cell_storeCell (coordinate_natCast r c) (boolOperand_bit v), decide_boolOperand_eq_one]
  exact if_pos ⟨rfl, rfl⟩

/-- After a Boolean is stored in a cell, every other cell holds what it held (R81). -/
theorem cell_storeCell_other (s : State) {r r' : Fin 16} {c c' : Fin 8} (v : Bool) (h : (r', c') ≠ (r, c)) :
    (storeCell (r.val : Int) (c.val : Int) (boolOperand v) s).cell r' c' = s.cell r' c' := by
  rw [cell_storeCell (coordinate_natCast r c) (boolOperand_bit v)]
  refine if_neg ?_
  rintro ⟨hrow, hcol⟩
  exact h (Prod.ext (Fin.ext (Int.ofNat.inj hrow)) (Fin.ext (Int.ofNat.inj hcol)))

/-! ### DEL -/

/-- DEL fails whatever its operands: it reads nothing but the mode (R80). -/
theorem exec_del (row col : Int) (s : State) :
    exec (.del row col) s = .next (if s.mode = .dead then answer s 6 0x00 else answer s 4 0x00) := by
  change execDel row col s = _
  rw [execDel]
  split
  · next h => rw [deadGuard_dead h]; rfl
  · next h => rw [deadGuard_live h]; rfl

/-! ### Their words -/

/-- GET carries row and column in the signed fields A and B (R57). -/
theorem decode_get_word (a b : Byte) : decode (fieldsWord 0x1 a b 0 0) = .ok (.get a.toInt b.toInt) := by
  rw [fieldsWord_eq_mkWord, decode_get]
  exact unusedZero_eq_ok.mpr ⟨rfl, rfl⟩

/-- SET carries row, column and value in the signed fields A, B and V (R57). -/
theorem decode_set_word (a b v : Byte) :
    decode (fieldsWord 0x2 a b v 0) = .ok (.set a.toInt b.toInt v.toInt) := by
  rw [fieldsWord_eq_mkWord, decode_set]
  rfl

/-- DEL carries row and column in the signed fields A and B (R57). -/
theorem decode_del_word (a b : Byte) : decode (fieldsWord 0x3 a b 0 0) = .ok (.del a.toInt b.toInt) := by
  rw [fieldsWord_eq_mkWord, decode_del]
  exact unusedZero_eq_ok.mpr ⟨rfl, rfl⟩

/-! ### The four obligations -/

/-- Settles O22: GET's three cases, and its word. -/
theorem getAnswersTheCell : Obligations.GetAnswersTheCell :=
  ⟨fun _ row col => ⟨fun hdead => exec_get_dead hdead row col, exec_get_outOfRange⟩,
    fun _ r c hlive => exec_get_cell hlive r c, decode_get_word⟩

/-- Settles O23: SET's failures in their order; on success the state it answers is `storeCell` with the response OK,
whose cells `cell_storeCell` gives. -/
theorem setChangesExactlyOneCell : Obligations.SetChangesExactlyOneCell := by
  refine ⟨fun s row col v => ⟨?dead, ?outOfRange, exec_set_invalid, ?stores⟩, rfl, rfl, decode_set_word⟩
  case dead => exact fun hdead => exec_set_dead hdead row col v
  case outOfRange => exact fun hlive hc => exec_set_outOfRange hlive hc v
  case stores =>
    intro hlive hc hv
    exact ⟨_, exec_set_stores hlive hc hv, rfl, cell_storeCell hc hv s⟩

/-- Settles O26: GET after SET reads the stored cell by `cell_storeCell_same`, the other cells stay by
`cell_storeCell_other`, and beyond the last row or column there is no coordinate. -/
theorem cellLaws : Obligations.CellLaws := by
  refine ⟨fun s r c v hrun => ?_, fun s row col v hrun hbeyond => ?_⟩
  · have hlive := live_of_run hrun
    refine ⟨_, exec_set_stores hlive (coordinate_natCast r c) (boolOperand_bit v), ?_, fun r' c' hne => ?_⟩
    · refine (exec_get_cell ?_ r c).trans ?_
      · exact hlive
      · rw [cell_answer, cell_storeCell_same]
    · rw [cell_answer, cell_storeCell_other s v hne]
  · have hlive := live_of_run hrun
    have hc := not_coordinate_of_beyond hbeyond
    exact ⟨exec_get_outOfRange hlive hc, exec_set_outOfRange hlive hc v⟩

/-- Settles O25: by `exec_del`, and DEL's word. -/
theorem delNeverSucceeds : Obligations.DelNeverSucceeds :=
  ⟨fun s row col => exec_del row col s, decode_del_word⟩

end Sys2Proof.Machine
end

section
/-! PROOFS. FILL and LDBM (R83 to R92): what each answers in each case and the cells it leaves; and the SETs of a
matrix's elements, taken in any order, beside the LDBM of that matrix. -/

namespace Sys2Proof.Machine

open Sys2Proof.Claims

/-! ### Rows by their cells -/

/-- A response changes no row. -/
@[simp] theorem memRead_answer (s : State) (status : BitVec 4) (data : Byte) (r : Fin 16) :
    memRead r (answer s status data) = memRead r s := rfl

/-- A row is its eight cells (R35). -/
theorem memRead_eq_of_cell_eq {s t : State} {r : Fin 16} (h : ∀ c : Fin 8, s.cell r c = t.cell r c) :
    memRead r s = memRead r t :=
  BitVec.eq_of_getLsbD_eq fun i hi => h ⟨i, hi⟩

/-! ### FILL -/

/-- In DEAD mode FILL is answered with InitializationError, whatever its value (R86). -/
theorem exec_fill_dead {s : State} (h : s.mode = .dead) (v : Int) :
    exec (.fill v) s = .next (answer s 6 0x00) := by
  change execFill v s = _
  rw [execFill, deadGuard_dead h]
  rfl

/-- FILL with what is no bit is answered with InvalidArgument (R86). -/
theorem exec_fill_invalid {s : State} {v : Int} (h : s.mode ≠ .dead) (hv : ¬ (v = 0 ∨ v = 1)) :
    exec (.fill v) s = .next (answer s 2 0x00) := by
  change execFill v s = _
  rw [execFill, deadGuard_live h, if_neg (mt isBit_iff.mp hv)]
  rfl

/-- FILL with a bit writes the same byte to every row and is answered with OK (R86). -/
theorem exec_fill_bit {s : State} {v : Int} (h : s.mode ≠ .dead) (hv : v = 0 ∨ v = 1) :
    exec (.fill v) s = .next (answer (writeRows (fun _ => if v = 1 then 0xFF else 0x00) s) 0 0x00) := by
  change execFill v s = _
  rw [execFill, deadGuard_live h, if_pos (isBit_iff.mpr hv)]
  rfl

/-- FILL carries its value in the signed field V (R57). -/
theorem decode_fill_word (v : Byte) : decode (fieldsWord 0x4 0 0 v 0) = .ok (.fill v.toInt) := by
  rw [fieldsWord_eq_mkWord, decode_fill]
  exact unusedZero_eq_ok.mpr ⟨rfl, rfl⟩

/-- Settles O28: FILL's three cases, the rows of the last by `memRead_writeRows`, and its word. -/
theorem fillSetsEveryRow : Obligations.FillSetsEveryRow := by
  refine ⟨fun s v => ⟨fun hdead => exec_fill_dead hdead v, exec_fill_invalid, fun hlive hv => ?_⟩, rfl, rfl,
    decode_fill_word⟩
  refine ⟨_, exec_fill_bit hlive hv, rfl, fun r => ?_⟩
  rw [memRead_answer, memRead_writeRows]

/-! ### The elements of a matrix -/

/-- A matrix of the shape has its rows and elements where the cell enumeration looks for them (R84, R89). -/
theorem element_mem {m : List (List Int)} (h : sixteenByEight m) {i j : Nat} (hi : i < 16) (hj : j < 8) :
    ∃ row ∈ m, element m i j ∈ row := by
  obtain ⟨hrows, hcols⟩ := h
  have hi' : i < m.length := by omega
  have hmem : m[i] ∈ m := List.getElem_mem hi'
  have hj' : j < m[i].length := by rw [hcols _ hmem]; exact hj
  refine ⟨m[i], hmem, ?_⟩
  rw [element, List.getD_eq_getElem _ _ hi', List.getD_eq_getElem _ _ hj']
  exact List.getElem_mem hj'

/-- In a matrix of the shape every element of every row stands at a cell (R84, R89). -/
theorem exists_element_eq {m : List (List Int)} (h : sixteenByEight m) {row : List Int} (hrow : row ∈ m) {v : Int}
    (hv : v ∈ row) : ∃ i j, i < 16 ∧ j < 8 ∧ element m i j = v := by
  obtain ⟨hrows, hcols⟩ := h
  have hlen := hcols row hrow
  obtain ⟨i, hi, rfl⟩ := List.getElem_of_mem hrow
  obtain ⟨j, hj, rfl⟩ := List.getElem_of_mem hv
  refine ⟨i, j, by omega, by omega, ?_⟩
  rw [element, List.getD_eq_getElem _ _ hi, List.getD_eq_getElem _ _ hj]

/-- On a matrix of the shape, the check over the cell enumeration is that of every element of every row (R89). -/
theorem allBits_iff_onlyBits {m : List (List Int)} (h : sixteenByEight m) : allBits m = true ↔ onlyBits m := by
  rw [allBits_iff]
  constructor
  · intro hbits row hrow v hv
    obtain ⟨i, j, hi, hj, rfl⟩ := exists_element_eq h hrow hv
    exact hbits i j hi hj
  · intro hbits i j hi hj
    obtain ⟨row, hrow, hv⟩ := element_mem h hi hj
    exact hbits row hrow _ hv

/-- Every element of a 16 by 8 matrix of bits is a bit (R89). -/
theorem element_bit {m : List (List Int)} (hshape : sixteenByEight m) (hbits : onlyBits m) (r : Fin 16) (c : Fin 8) :
    element m r.val c.val = 0 ∨ element m r.val c.val = 1 :=
  allBits_iff.mp ((allBits_iff_onlyBits hshape).mpr hbits) _ _ r.isLt c.isLt

/-! ### LDBM -/

/-- In DEAD mode LDBM is answered with InitializationError, whatever its matrix (R88). -/
theorem exec_ldbm_dead {s : State} (h : s.mode = .dead) (m : List (List Int)) :
    exec (.ldbm (.matrix m)) s = .next (answer s 6 0x00) := by
  change Host.Outcome.next (loadBitmap m s) = _
  rw [loadBitmap, deadGuard_dead h]
  rfl

/-- A matrix of another shape is answered with ShapeMismatch, whatever its elements (R84, R88). -/
theorem exec_ldbm_misshapen {m : List (List Int)} {s : State} (h : s.mode ≠ .dead) (hshape : ¬ sixteenByEight m) :
    exec (.ldbm (.matrix m)) s = .next (answer s 3 0x00) := by
  have hcheck : isShape m = false := Bool.eq_false_iff.mpr (mt isShape_iff.mp hshape)
  change Host.Outcome.next (loadBitmap m s) = _
  rw [loadBitmap, deadGuard_live h, hcheck]
  rfl

/-- A matrix of the shape that holds a non-bit is answered with InvalidArgument (R88, R89). -/
theorem exec_ldbm_nonBit {m : List (List Int)} {s : State} (h : s.mode ≠ .dead) (hshape : sixteenByEight m)
    (hbits : ¬ onlyBits m) : exec (.ldbm (.matrix m)) s = .next (answer s 2 0x00) := by
  have hcheck : allBits m = false := Bool.eq_false_iff.mpr (mt (allBits_iff_onlyBits hshape).mp hbits)
  change Host.Outcome.next (loadBitmap m s) = _
  rw [loadBitmap, deadGuard_live h, isShape_iff.mpr hshape, hcheck]
  rfl

/-- A 16 by 8 matrix of bits becomes the 16 rows and is answered with OK (R85, R88). -/
theorem exec_ldbm_loads {m : List (List Int)} {s : State} (h : s.mode ≠ .dead) (hshape : sixteenByEight m)
    (hbits : onlyBits m) : exec (.ldbm (.matrix m)) s = .next (answer (writeRows (rowsOf m) s) 0 0x00) := by
  change Host.Outcome.next (loadBitmap m s) = _
  rw [loadBitmap, deadGuard_live h, isShape_iff.mpr hshape, (allBits_iff_onlyBits hshape).mpr hbits]
  rfl

/-- After the rows of a matrix of bits are written, each cell holds its element (R85). -/
theorem cell_writeRows_rowsOf {m : List (List Int)} (hshape : sixteenByEight m) (hbits : onlyBits m) (s : State)
    (r : Fin 16) (c : Fin 8) : (writeRows (rowsOf m) s).cell r c = decide (element m r.val c.val = 1) := by
  rw [State.cell, memRead_writeRows, getLsbD_rowsOf ((allBits_iff_onlyBits hshape).mpr hbits)]

/-- Settles O29: LDBM's failures in their order; on success the cells are those of `cell_writeRows_rowsOf`. -/
theorem ldbmLoadsTheMatrixOrNothing : Obligations.LdbmLoadsTheMatrixOrNothing := by
  refine fun m s => ⟨fun hdead => exec_ldbm_dead hdead m, exec_ldbm_misshapen, exec_ldbm_nonBit,
    fun hlive hshape hbits => ?_⟩
  exact ⟨_, exec_ldbm_loads hlive hshape hbits, rfl, cell_writeRows_rowsOf hshape hbits s⟩

/-- The byte GET answers for a cell that holds a bit is that bit (R78, R91). -/
theorem cellDatum_eq_ofInt {v : Int} (hv : v = 0 ∨ v = 1) :
    (if decide (v = 1) then 0x01 else 0x00 : Byte) = BitVec.ofInt 8 v := by
  rcases hv with rfl | rfl <;> rfl

/-- Settles O30: LDBM leaves each element in its cell, and GET reads the cell. -/
theorem ldbmThenGetReproducesTheMatrix : Obligations.LdbmThenGetReproducesTheMatrix := by
  intro m s hrun hshape hbits
  have hlive := live_of_run hrun
  refine ⟨_, exec_ldbm_loads hlive hshape hbits, fun r c => ?_⟩
  refine (exec_get_cell ?_ r c).trans ?_
  · exact hlive
  · rw [cell_answer, cell_writeRows_rowsOf hshape hbits, cellDatum_eq_ofInt (element_bit hshape hbits r c)]
    rfl

/-! ### The SETs of a matrix's elements -/

/-- What a SET of `v` leaves in its cell: the bit, or what was there where `v` is none (R79, R92). -/
def storedBit (v : Int) (old : Bool) : Bool := if v = 0 then false else if v = 1 then true else old

theorem storedBit_of_bit {v : Int} (hv : v = 0 ∨ v = 1) (old : Bool) : storedBit v old = decide (v = 1) := by
  rcases hv with rfl | rfl <;> rfl

theorem storedBit_of_nonBit {v : Int} (hv : ¬ (v = 0 ∨ v = 1)) (old : Bool) : storedBit v old = old := by
  obtain ⟨h0, h1⟩ := not_or.mp hv
  rw [storedBit, if_neg h0, if_neg h1]

/-- Storing a value twice is storing it once. -/
@[simp] theorem storedBit_storedBit (v : Int) (old : Bool) : storedBit v (storedBit v old) = storedBit v old := by
  by_cases hv : v = 0 ∨ v = 1
  · simp only [storedBit_of_bit hv]
  · simp only [storedBit_of_nonBit hv]

/-- The request `SET i, j, M[i][j]` of a cell `(i, j)` (R92). -/
def setElement (m : List (List Int)) (p : Nat × Nat) : Instr := .set (p.1 : Int) (p.2 : Int) (element m p.1 p.2)

/-- The SET of a cell leaves the element there where it is a bit, and every other cell as it was (R79). -/
theorem exec_setElement {s : State} (h : s.mode ≠ .dead) (m : List (List Int)) {p : Nat × Nat} (hp : p ∈ cellEnum) :
    ∃ t, exec (setElement m p) s = .next t ∧ ∀ (r : Fin 16) (c : Fin 8), t.cell r c =
      if (r.val, c.val) = p then storedBit (element m r.val c.val) (s.cell r c) else s.cell r c := by
  obtain ⟨i, j⟩ := p
  obtain ⟨hi, hj⟩ := mem_cellEnum.mp hp
  have hc : coordinate (i : Int) (j : Int) := by unfold coordinate; omega
  by_cases hv : element m i j = 0 ∨ element m i j = 1
  · refine ⟨_, exec_set_stores h hc hv, fun r c => ?_⟩
    rw [cell_answer, cell_storeCell hc hv]
    simp only [Nat.cast_inj, Prod.mk.injEq]
    split
    · next hrc =>
      obtain ⟨rfl, rfl⟩ := hrc
      rw [storedBit_of_bit hv]
    · rfl
  · refine ⟨_, exec_set_invalid h hc hv, fun r c => ?_⟩
    rw [cell_answer]
    split
    · next hrc =>
      obtain ⟨rfl, rfl⟩ := Prod.mk.inj hrc
      rw [storedBit_of_nonBit hv]
    · rfl

/-- Taking requests goes on from the state the first one left. -/
theorem execAll_cons {i : Instr} {s t : State} (h : exec i s = .next t) (rest : List Instr) :
    execAll (i :: rest) s = execAll rest t := by
  rw [execAll, h]

/-- The SETs of a list of cells leave in each of them its element where that is a bit, and every other cell as it was.
What a cell gets depends on the cell alone, so neither the order of the cells matters nor how often one occurs (R92). -/
theorem execAll_setElement (m : List (List Int)) (cells : List (Nat × Nat)) (hcells : cells ⊆ cellEnum) (s : State)
    (h : s.mode ≠ .dead) : ∃ u, execAll (cells.map (setElement m)) s = .next u ∧
      ∀ (r : Fin 16) (c : Fin 8), u.cell r c =
        if (r.val, c.val) ∈ cells then storedBit (element m r.val c.val) (s.cell r c) else s.cell r c := by
  induction cells generalizing s with
  | nil => exact ⟨s, rfl, fun r c => by simp⟩
  | cons p rest ih =>
    obtain ⟨hp, hrest⟩ := List.cons_subset.mp hcells
    obtain ⟨t, hset, ht⟩ := exec_setElement h m hp
    have hlive : t.mode ≠ .dead := by rw [(effect_of_exec hset).mode]; exact h
    obtain ⟨u, hu, hcell⟩ := ih hrest t hlive
    refine ⟨u, (execAll_cons hset _).trans hu, fun r c => ?_⟩
    rw [hcell, ht]
    by_cases hfirst : (r.val, c.val) = p
    · simp [hfirst]
    · simp [hfirst]

/-- The SETs of all 128 cells, in any order, leave every element that is a bit in its cell (R92). -/
theorem execAll_setElement_perm (m : List (List Int)) {cells : List (Nat × Nat)} (hperm : cells.Perm cellEnum)
    {s : State} (h : s.mode ≠ .dead) : ∃ u, execAll (cells.map (setElement m)) s = .next u ∧
      ∀ (r : Fin 16) (c : Fin 8), u.cell r c = storedBit (element m r.val c.val) (s.cell r c) := by
  obtain ⟨u, hu, hcell⟩ := execAll_setElement m cells hperm.subset s h
  refine ⟨u, hu, fun r c => ?_⟩
  have hmem : (r.val, c.val) ∈ cells := hperm.mem_iff.mpr (mem_cellEnum.mpr ⟨r.isLt, c.isLt⟩)
  rw [hcell, if_pos hmem]

/-- Settles O31: by `execAll_setElement_perm` the SETs leave `storedBit` of each element in its cell. For a matrix of bits
that is what LDBM leaves there; for any other, LDBM fails and changes no row. -/
theorem ldbmEqualsSetsInAnyOrder : Obligations.LdbmEqualsSetsInAnyOrder := by
  intro m s cells hrun hshape hperm
  have hlive := live_of_run hrun
  obtain ⟨u, hu, hcell⟩ := execAll_setElement_perm m hperm hlive
  by_cases hbits : onlyBits m
  · refine ⟨_, u, exec_ldbm_loads hlive hshape hbits, hu, fun _ r => ?_, fun hnot => absurd hbits hnot⟩
    refine memRead_eq_of_cell_eq fun c => ?_
    rw [cell_answer, cell_writeRows_rowsOf hshape hbits, hcell, storedBit_of_bit (element_bit hshape hbits r c)]
  · exact ⟨_, u, exec_ldbm_nonBit hlive hshape hbits, hu, fun hyes => absurd hyes hbits, fun _ => ⟨fun _ => rfl, hcell⟩⟩

end Sys2Proof.Machine
end

section
/-! PROOFS. The transport step (R101): its five outcomes on an answer lined up for it; and SETBLK and SETBRT as one
transaction (R103): the step that takes the word, then the transport step on the one raw item it queued. -/

namespace Sys2Proof.Machine

open Sys2Proof.Claims

/-! ### The transport step -/

/-- The step of a sending block whose next reply is an answer is the transport step on that answer, with the reply and
the reset sample taken (R101). -/
theorem step_of_sends {s : State} {item : TxItem} {rest : List TxItem} {ans : Answer} {rs : List (Option Answer)}
    (h : s.Sends item rest) (hrep : s.replies = some ans :: rs) :
    step s = .next (txStep ans { s with resetIn := s.resetIn.tail, replies := rs }) := by
  have hqueue : s.txq ≠ [] := by simp [h.queued]
  have hreply : (takeResetSample s).replies = some ans :: rs := hrep
  rw [step_busy h.noReset hqueue, pollTransport, reply_cons hreply]
  simp only [takeReply_cons hreply]
  rfl

/-- Settles O12: by `step_of_sends` the step is the transport step, and each outcome is the law of `txStep` for it. -/
theorem transportStepFollowsTheAnswer : Obligations.TransportStepFollowsTheAnswer := by
  intro s item rest rs h
  refine ⟨fun hrep hrest => ?more, fun hrep hrest hmode => ?lastOfReset, fun hrep hrest hmode => ?last,
    fun hrep hmode => ?failInReset, fun hrep hmode => ?fail⟩ <;> rw [step_of_sends h hrep]
  case more =>
    obtain ⟨next, more, rfl⟩ := List.exists_cons_of_ne_nil hrest
    exact congrArg _ (txStep_ok_more h.queued)
  case lastOfReset =>
    subst hrest
    exact congrArg _ (txStep_ok_last_init h.queued hmode)
  case last =>
    subst hrest
    exact congrArg _ (txStep_ok_last h.queued hmode)
  case failInReset => exact congrArg _ (txStep_fail_init h.queued hmode)
  case fail => exact congrArg _ (txStep_fail h.queued hmode)

/-- The last item of a request answers the request: OK or TransportError, as the item is answered (R101). -/
theorem txStep_last {s : State} {item : TxItem} (hqueue : s.txq = [item]) (hmode : s.mode ≠ .init) (ans : Answer) :
    txStep ans s =
      { answer s (if ans = .ok then 0 else 5) 0x00 with trace := s.trace ++ [(item, ans)], txq := [] } := by
  cases ans with
  | ok => exact txStep_ok_last hqueue hmode
  | fail => exact txStep_fail hqueue hmode

/-- The step in which a request's last item is answered emits the item and answers the request (R101). -/
theorem step_answered_last {s : State} {item : TxItem} {ans : Answer} {rs : List (Option Answer)}
    (hreset : s.resetIn = []) (hqueue : s.txq = [item]) (hmode : s.mode ≠ .init) (hrep : s.replies = some ans :: rs) :
    step s = .next { answer s (if ans = .ok then 0 else 5) 0x00 with
      replies := rs, trace := s.trace ++ [(item, ans)], txq := [] } :=
  (step_answered hreset hqueue hrep).trans
    (congrArg _ (txStep_last (s := { s with replies := rs }) hqueue hmode ans))

/-! ### The setters' requests -/

/-- The blink byte of a valid operand is a linear formula over the integer (R71). -/
theorem encBlk_eq_ofInt {mode : Int} (h : 0 ≤ mode ∧ mode ≤ 3) :
    encBlk (blinkIndex mode) = BitVec.ofInt 8 (0x81 + 2 * mode) := by
  have hall : ∀ m : Fin 4, encBlk m = BitVec.ofInt 8 (0x81 + 2 * (m.val : Int)) := by decide
  rw [hall, blinkIndex_val h]

/-- The brightness byte of a valid operand is a linear formula over the integer (R72). -/
theorem encBrt_eq_ofInt {level : Int} (h : 0 ≤ level ∧ level ≤ 15) :
    encBrt (levelIndex level) = BitVec.ofInt 8 (0xE0 + level) := by
  have hall : ∀ l : Fin 16, encBrt l = BitVec.ofInt 8 (0xE0 + (l.val : Int)) := by decide
  rw [hall, levelIndex_val h]

/-- A valid SETBLK queues its one raw item (R97). -/
theorem exec_setblk_valid {s : State} {mode : Int} (h : s.mode ≠ .dead) (hm : 0 ≤ mode ∧ mode ≤ 3) :
    exec (.setblk mode) s = .next (queueItems [.raw (encBlk (blinkIndex mode))] s) := by
  change execSetblk mode s = _
  rw [execSetblk, deadGuard_live h, if_pos (validBlk_iff.mpr hm)]

/-- Any other integer is InvalidArgument, and nothing is queued (R96, R97). -/
theorem exec_setblk_invalid {s : State} {mode : Int} (h : s.mode ≠ .dead) (hm : ¬ (0 ≤ mode ∧ mode ≤ 3)) :
    exec (.setblk mode) s = .next (answer s 2 0x00) := by
  change execSetblk mode s = _
  rw [execSetblk, deadGuard_live h, if_neg (mt validBlk_iff.mp hm)]
  rfl

/-- A valid SETBRT queues its one raw item (R98). -/
theorem exec_setbrt_valid {s : State} {level : Int} (h : s.mode ≠ .dead) (hl : 0 ≤ level ∧ level ≤ 15) :
    exec (.setbrt level) s = .next (queueItems [.raw (encBrt (levelIndex level))] s) := by
  change execSetbrt level s = _
  rw [execSetbrt, deadGuard_live h, if_pos (validBrt_iff.mpr hl)]

/-- Any other integer is InvalidArgument, and nothing is queued (R96, R98). -/
theorem exec_setbrt_invalid {s : State} {level : Int} (h : s.mode ≠ .dead) (hl : ¬ (0 ≤ level ∧ level ≤ 15)) :
    exec (.setbrt level) s = .next (answer s 2 0x00) := by
  change execSetbrt level s = _
  rw [execSetbrt, deadGuard_live h, if_neg (mt validBrt_iff.mp hl)]
  rfl

/-! ### The transaction -/

/-- Between requests, the step performs the request that the presented word spells (R104). -/
theorem step_of_idle {s : State} {w : Word} {ws : List Word} {i : Instr} (h : s.Idle) (hw : s.words = w :: ws)
    (hd : decode w = .ok i) : step s = exec i { s with words := ws } := by
  have hlive : s.mode ≠ .init := by simp [h.run]
  have hpresents : s.Presents w ws :=
    ⟨by simp [State.resetAsserted, h.noReset], not_busy_iff.mpr ⟨hlive, h.queue⟩, h.collector, hw⟩
  have htaken : taken s ws = { s with words := ws } := by simp [taken, h.noReset]
  have hcollector : ({ s with words := ws } : State).ld = .none := h.collector
  rw [step_of_presents hpresents, htaken, reqStep_request hcollector hd]

/-- Between requests, a word whose request queues one item: two steps emit that item and write the response that its
answer asks for, and nothing else changes (R101, R103). -/
theorem run_of_idle_queues_one {s : State} {w : Word} {ws : List Word} {i : Instr} {item : TxItem} {ans : Answer}
    {rs : List (Option Answer)} (h : s.Idle) (hw : s.words = w :: ws) (hrep : s.replies = some ans :: rs)
    (hd : decode w = .ok i)
    (hexec : exec i { s with words := ws } = .next (queueItems [item] { s with words := ws })) :
    run 2 s = .next { answer s (if ans = .ok then 0 else 5) 0x00 with
      words := ws, replies := rs, trace := s.trace ++ [(item, ans)] } := by
  have htake : step s = .next (queueItems [item] { s with words := ws }) := (step_of_idle h hw hd).trans hexec
  have hlive : s.mode ≠ .init := by simp [h.run]
  have hanswer := step_answered_last (s := queueItems [item] { s with words := ws }) h.noReset rfl hlive hrep
  rw [run_succ htake, run_one hanswer]
  simp [queueItems, answer, h.queue]

/-- Settles O39: a valid operand queues one raw item, so `run_of_idle_queues_one` gives the two steps; an invalid one is
answered in the step that takes the word. -/
theorem settersAsOneTransaction : Obligations.SettersAsOneTransaction := by
  intro s w ws ans rs hidle hw hrep n
  have hlive : ({ s with words := ws } : State).mode ≠ .dead := live_of_run hidle.run
  refine ⟨fun hd => ⟨fun hn => ?_, fun hn => ?_⟩, fun hd => ⟨fun hn => ?_, fun hn => ?_⟩⟩
  · rw [← encBlk_eq_ofInt hn]
    exact run_of_idle_queues_one hidle hw hrep hd (exec_setblk_valid hlive hn)
  · exact (step_of_idle hidle hw hd).trans (exec_setblk_invalid hlive hn)
  · rw [← encBrt_eq_ofInt hn]
    exact run_of_idle_queues_one hidle hw hrep hd (exec_setbrt_valid hlive hn)
  · exact (step_of_idle hidle hw hd).trans (exec_setbrt_invalid hlive hn)

end Sys2Proof.Machine
end

section
/-! PROOFS. The busy block (R26, R131): every step of it leaves the presented words alone, and only an answered item can
end it; and the reset sequence (R124, R125), run to its end by answers `ok`. -/

namespace Sys2Proof.Machine

open Sys2Proof.Claims

/-! ### A busy block takes no word -/

/-- A transport step takes no word from the request port (R99, R101). -/
@[simp] theorem txStep_words (ans : Answer) (s : State) : (txStep ans s).words = s.words := by
  cases hq : s.txq with
  | nil => simp [txStep, hq]
  | cons item rest =>
    rcases txStep_cases hq ans with ⟨_, _, h⟩ | ⟨_, _, _, h⟩ | ⟨_, _, _, h⟩ | ⟨_, _, h⟩ | ⟨_, _, h⟩ <;> rw [h] <;> rfl

/-- Whether a block is busy shows in its mode and its queue alone (R26). -/
theorem busy_congr {s t : State} (hmode : t.mode = s.mode) (hqueue : t.txq = s.txq) : t.busy = s.busy := by
  rw [State.busy, hmode, hqueue, State.busy]

theorem ready_iff {s : State} : s.ready = true ↔ s.mode = .run ∧ s.txq = [] := by
  simp [State.ready]

/-- The host never sees a block both busy and ready (R26, R27). -/
theorem ready_eq_false_of_busy {s : State} (h : s.busy = true) : s.ready = false := by
  rcases busy_iff.mp h with hmode | hqueue
  · simp [State.ready, hmode]
  · simp [State.ready, hqueue]

/-- What a step of a busy block can do: it takes no word, and the block stays busy unless the item in flight was
answered. -/
theorem StepCase.of_busy {s t : State} (hcase : StepCase s t) (hbusy : s.busy = true) :
    t.words = s.words ∧
      (t.busy = true ∨ ∃ item rest ans, s.txq = item :: rest ∧ t.trace = s.trace ++ [(item, ans)]) := by
  have hserves : s.txq = [] → s.mode ≠ .init → False := fun hqueue hmode => by
    simp [not_busy_iff.mpr ⟨hmode, hqueue⟩] at hbusy
  cases hcase with
  | reset => exact ⟨rfl, .inl rfl⟩
  | answered _ item rest hqueue ans =>
    have htrace := txStep_trace (s := takeReply (takeResetSample s)) (by simpa using hqueue) ans
    exact ⟨by simp, .inr ⟨item, rest, ans, hqueue, by simpa using htrace⟩⟩
  | unanswered => exact ⟨by simp, .inl ((busy_congr (by simp) (by simp)).trans hbusy)⟩
  | idle => exact ⟨rfl, .inl hbusy⟩
  | payload _ hqueue hmode => exact (hserves hqueue hmode).elim
  | illegal _ hqueue hmode => exact (hserves hqueue hmode).elim
  | request _ hqueue hmode => exact (hserves hqueue hmode).elim

/-- Settles O11: each case of a busy block's step, by `StepCase.of_busy`. -/
theorem busyBlockTakesNoWord : Obligations.BusyBlockTakesNoWord := by
  intro s hbusy
  obtain ⟨t, hstep, hcase⟩ := step_case s
  obtain ⟨hwords, hends⟩ := hcase.of_busy hbusy
  exact ⟨t, hstep, hwords, fun hidle => hends.resolve_left (by simp [hidle])⟩

/-! ### The reset sequence, answered `ok` throughout -/

/-- The step in which the last item of the reset sequence is answered `ok` sets RUN mode and writes no response (R125). -/
theorem step_ok_last_init {s : State} {item : TxItem} {rs : List (Option Answer)} (hreset : s.resetIn = [])
    (hqueue : s.txq = [item]) (hmode : s.mode = .init) (hrep : s.replies = some .ok :: rs) :
    step s = .next { s with mode := .run, txq := [], replies := rs, trace := s.trace ++ [(item, .ok)] } :=
  (step_answered hreset hqueue hrep).trans
    (congrArg _ (txStep_ok_last_init (s := { s with replies := rs }) hqueue hmode))

section Answered

variable {s : State} {rs : List (Option Answer)} (hreset : s.resetIn = [])
  (hrep : s.replies = List.replicate s.txq.length (some .ok) ++ rs)
include hreset hrep

/-- With an answer `ok` lined up for every queued item, fewer steps than there are items emit the first ones in order, and
nothing else happens. -/
theorem run_ok_prefix {k : Nat} (hk : k < s.txq.length) :
    run k s = .next { s with txq := s.txq.drop k,
                             replies := List.replicate (s.txq.length - k) (some .ok) ++ rs,
                             trace := s.trace ++ (s.txq.take k).map fun x => (x, Answer.ok) } := by
  have hlength : (s.txq.take k).length = k := List.length_take_of_le hk.le
  have hqueue : s.txq = s.txq.take k ++ s.txq[k] :: s.txq.drop (k + 1) := by
    rw [← List.drop_eq_getElem_cons hk, List.take_append_drop]
  have hreplies : s.replies = List.replicate (s.txq.take k).length (some .ok) ++
      (List.replicate (s.txq.length - k) (some .ok) ++ rs) := by
    rw [hrep, hlength, ← List.append_assoc, List.replicate_append_replicate, Nat.add_sub_cancel' hk.le]
  have hrun := run_ok_items _ _ _ s _ hreset hqueue hreplies
  rwa [hlength, ← List.drop_eq_getElem_cons hk] at hrun

/-- In INIT mode as many answers `ok` as there are queued items emit them all in order and end in RUN mode, with no
response written (R125). -/
theorem run_ok_init (hmode : s.mode = .init) (hqueue : s.txq ≠ []) :
    run s.txq.length s = .next { s with mode := .run, txq := [], replies := rs,
                                        trace := s.trace ++ s.txq.map fun x => (x, Answer.ok) } := by
  obtain ⟨items, last, hlast⟩ := (List.eq_nil_or_concat' s.txq).resolve_left hqueue
  have hreplies : s.replies = List.replicate items.length (some .ok) ++ some .ok :: rs := by
    simp [hrep, hlast, List.replicate_succ']
  have hrun := run_ok_items items last [] s _ hreset hlast hreplies
  have hlength : s.txq.length = items.length + 1 := by simp [hlast]
  rw [hlength, run_add hrun]
  refine (run_one (step_ok_last_init (by exact hreset) (by exact rfl) (by exact hmode) (by exact rfl))).trans ?_
  simp [hlast]

end Answered

/-- Settles O40: the reset state is in INIT mode with the 19 items queued, so `run_ok_init` gives the run to its end and
`run_ok_prefix` every shorter one. -/
theorem resetSequenceCompletes : Obligations.ResetSequenceCompletes := by
  intro s rs hs
  have hmode : s.mode = .init := congrArg State.mode hs
  have hreset : s.resetIn = [] := congrArg State.resetIn hs
  have hqueue : s.txq = nineteenItems := (congrArg State.txq hs).trans resetSequence_eq_nineteenItems
  have hlength : s.txq.length = 19 := by rw [hqueue, nineteenItems_length]
  have hrep : s.replies = List.replicate s.txq.length (some .ok) ++ rs := by
    rw [hlength]
    exact congrArg State.replies hs
  refine ⟨⟨_, ?_, ready_iff.mpr ⟨rfl, rfl⟩, rfl⟩, fun k hk => ?_⟩
  · rw [← hqueue, ← hlength]
    exact run_ok_init hreset hrep hmode (List.ne_nil_of_length_pos (by omega))
  · have hrun := run_ok_prefix hreset hrep (hlength ▸ hk)
    refine ⟨_, hrun, ?busy, ready_eq_false_of_busy ?busy, rfl⟩
    exact busy_iff.mpr (.inl hmode)

end Sys2Proof.Machine
end

section
/-! PROOFS. The decoder against the field table (R56, R62), the encoder as its inverse word by word (R54 to R58), and
the framing of an LDBM header with its payload (R59, R60). -/

namespace Sys2Proof

open Sys2Proof.Machine Sys2Proof.Claims

/-! ### The decoder over every word -/

/-- The opcode map of R55: five values are reserved, each other one is a request's. -/
theorem opcode_cases (op : BitVec 4) : op ∈ [0x0#4, 0x7#4, 0xD#4, 0xE#4, 0xF#4] ∨ op = 0x1 ∨ op = 0x2 ∨ op = 0x3 ∨
    op = 0x4 ∨ op = 0x5 ∨ op = 0x6 ∨ op = 0x8 ∨ op = 0x9 ∨ op = 0xA ∨ op = 0xB ∨ op = 0xC := by
  revert op
  decide

/-- A word with a reserved opcode spells nothing (R55). -/
theorem spelled_reservedOpcode {op : BitVec 4} (h : op ∈ [0x0#4, 0x7#4, 0xD#4, 0xE#4, 0xF#4]) (a b v : Byte) :
    spelled op a b v 0 = none := by
  simp only [List.mem_cons, List.not_mem_nil, or_false] at h
  rcases h with rfl | rfl | rfl | rfl | rfl <;> simp [spelled]

/-- ENCSYS is the one row of the table that a field's value splits in two (R58). -/
theorem toOption_decode_encsys (a b v : Byte) : (decode (mkWord 0x8 a b v)).toOption = spelled 0x8 a b v 0 := by
  by_cases hunused : b ≠ 0#8 ∨ v ≠ 0#8
  · rw [decode_unused_bv (by decide) hunused]
    rcases hunused with h | h <;> simp [spelled, h, Except.toOption]
  obtain ⟨rfl, rfl⟩ : b = 0#8 ∧ v = 0#8 := by tauto
  by_cases h0 : a = 0#8
  · subst h0; rfl
  by_cases h1 : a = 1#8
  · subst h1; rfl
  obtain ⟨why, hd⟩ := decode_encsys_oscillator (b := 0#8) (v := 0#8) h0 h1
  rw [hd]
  simp [spelled, h0, h1, Except.toOption]

/-- Settles O2: a nonzero RSV or a reserved opcode spells nothing on either side; for each other opcode the decoder's
law is the row of the field table. -/
theorem decoderFollowsTheFieldTable : Obligations.DecoderFollowsTheFieldTable := by
  intro op a b v rsv
  by_cases hrsv : rsv = 0
  · subst hrsv
    rw [fieldsWord_eq_mkWord]
    rcases opcode_cases op with hop | rfl | rfl | rfl | rfl | rfl | rfl | rfl | rfl | rfl | rfl | rfl
    · rw [decode_reservedOpcode a b v hop, spelled_reservedOpcode hop]; rfl
    · rw [decode_get]; simp [spelled, sext8]
    · rw [decode_set]; rfl
    · rw [decode_del]; simp [spelled, sext8]
    · rw [decode_fill]; simp [spelled, sext8]
    · rw [decode_ldbm]; simp [spelled, zext8]
    · rw [decode_flush]; simp [spelled, and_assoc]
    · exact toOption_decode_encsys a b v
    · rw [decode_encblk]; simp [spelled, sext8]
    · rw [decode_encbrt]; simp [spelled, sext8]
    · rw [decode_setblk]; simp [spelled, sext8]
    · rw [decode_setbrt]; simp [spelled, sext8]
  · rw [fieldsWord, decode_reservedBits a b v op hrsv, spelled, if_pos hrsv]
    rfl

/-- Settles O1: the decoder on fourteen fixed words. -/
theorem encodedWordsDecode : Obligations.EncodedWordsDecode := by
  unfold Obligations.EncodedWordsDecode
  decide

/-- SETBLK carries the blink mode in the signed field A (R57). -/
theorem decode_setblk_word (a : Byte) : decode (fieldsWord 0xB a 0 0 0) = .ok (.setblk a.toInt) := by
  rw [fieldsWord_eq_mkWord, decode_setblk]
  exact unusedZero_eq_ok.mpr ⟨rfl, rfl⟩

/-- SETBRT carries the brightness level in the signed field A (R57). -/
theorem decode_setbrt_word (a : Byte) : decode (fieldsWord 0xC a 0 0 0) = .ok (.setbrt a.toInt) := by
  rw [fieldsWord_eq_mkWord, decode_setbrt]
  exact unusedZero_eq_ok.mpr ⟨rfl, rfl⟩

/-- LDBM's header carries both counts in the unsigned fields A and B (R56, R59). -/
theorem decode_header_word (a b : Byte) :
    decode (fieldsWord 0x5 a b 0 0) = .ok (.ldbm (.header a.toFin b.toFin)) := by
  rw [fieldsWord_eq_mkWord, decode_ldbm]
  exact unusedZero_eq_ok.mpr ⟨rfl, rfl⟩

/-- FLUSH's word is its opcode alone (R55). -/
theorem decode_flush_word : decode 0x60000000#32 = .ok .flush := by decide

/-! ### From the word to the request and back -/

/-- The word of an ENCSYS carries its Boolean and nothing else (R58). -/
theorem decode_encsys_eq_ok {a b v : Byte} {i : Instr} (h : decode (mkWord 0x8 a b v) = .ok i) :
    ∃ osc, i = .encsys osc ∧ a = (if osc then 0x01 else 0x00) ∧ b = 0 ∧ v = 0 := by
  by_cases hunused : b ≠ 0 ∨ v ≠ 0
  · rw [decode_unused_bv (by decide) hunused] at h
    cases h
  obtain ⟨rfl, rfl⟩ : b = 0 ∧ v = 0 := by tauto
  by_cases h0 : a = 0
  · subst h0; cases h; exact ⟨false, rfl, rfl, rfl, rfl⟩
  by_cases h1 : a = 1
  · subst h1; cases h; exact ⟨true, rfl, rfl, rfl, rfl⟩
  obtain ⟨why, hd⟩ := decode_encsys_oscillator (b := 0) (v := 0) h0 h1
  rw [hd] at h
  cases h

/-- A legal word has RSV zero, so it is a word of the encoder's form (R54, R61). -/
theorem exists_mkWord_of_decode_eq_ok {w : Word} {i : Instr} (h : decode w = .ok i) :
    ∃ op a b v, w = mkWord op a b v := by
  by_cases hrsv : rsvField w = 0
  · refine ⟨opField w, aField w, bField w, vField w, ?_⟩
    rw [mkWord, ← BitVec.ofNat_eq_ofNat, ← hrsv]
    exact word_eq_append w
  · rw [word_eq_append w, decode_reservedBits _ _ _ _ hrsv] at h
    cases h

/-- What a word of the encoder's form decodes to is well-formed and is encoded as that word: opcode by opcode, the
fields the request does not take are zero and the others are its operands'. -/
theorem reencode_of_decode_mkWord {op : BitVec 4} {a b v : Byte} {i : Instr} (h : decode (mkWord op a b v) = .ok i) :
    i.wf = true ∧ encode i = [mkWord op a b v] := by
  rcases opcode_cases op with hop | rfl | rfl | rfl | rfl | rfl | rfl | rfl | rfl | rfl | rfl | rfl
  · rw [decode_reservedOpcode a b v hop] at h; cases h
  · obtain ⟨hz, rfl⟩ := unusedZero_eq_ok.mp ((decode_get a b v).symm.trans h)
    simp_all [Instr.wf, encode, fitsSext8_sext8]
  · cases (decode_set a b v).symm.trans h
    simp [Instr.wf, encode, fitsSext8_sext8]
  · obtain ⟨hz, rfl⟩ := unusedZero_eq_ok.mp ((decode_del a b v).symm.trans h)
    simp_all [Instr.wf, encode, fitsSext8_sext8]
  · obtain ⟨hz, rfl⟩ := unusedZero_eq_ok.mp ((decode_fill a b v).symm.trans h)
    simp_all [Instr.wf, encode, fitsSext8_sext8]
  · obtain ⟨hz, rfl⟩ := unusedZero_eq_ok.mp ((decode_ldbm a b v).symm.trans h)
    simp_all [Instr.wf, encode, zext8]
  · obtain ⟨hz, rfl⟩ := unusedZero_eq_ok.mp ((decode_flush a b v).symm.trans h)
    simp_all [Instr.wf, encode]
  · obtain ⟨osc, rfl, rfl, rfl, rfl⟩ := decode_encsys_eq_ok h
    exact ⟨rfl, rfl⟩
  · obtain ⟨hz, rfl⟩ := unusedZero_eq_ok.mp ((decode_encblk a b v).symm.trans h)
    simp_all [Instr.wf, encode, fitsSext8_sext8]
  · obtain ⟨hz, rfl⟩ := unusedZero_eq_ok.mp ((decode_encbrt a b v).symm.trans h)
    simp_all [Instr.wf, encode, fitsSext8_sext8]
  · obtain ⟨hz, rfl⟩ := unusedZero_eq_ok.mp ((decode_setblk a b v).symm.trans h)
    simp_all [Instr.wf, encode, fitsSext8_sext8]
  · obtain ⟨hz, rfl⟩ := unusedZero_eq_ok.mp ((decode_setbrt a b v).symm.trans h)
    simp_all [Instr.wf, encode, fitsSext8_sext8]

/-- Settles O6: a legal word is of the encoder's form, and `reencode_of_decode_mkWord` speaks of those. -/
theorem decodedWordsReencode : Obligations.DecodedWordsReencode := by
  intro w i h
  obtain ⟨op, a, b, v, rfl⟩ := exists_mkWord_of_decode_eq_ok h
  exact reencode_of_decode_mkWord h

/-- A well-formed request other than LDBM with its matrix is the decoding of its one word: the fields it does not take
are zero, and each of the others gives its operand back (R54 to R58). -/
theorem exists_word_of_wf {i : Instr} (hwf : i.wf = true) (hm : ∀ m, i ≠ .ldbm (.matrix m)) :
    ∃ w, encode i = [w] ∧ decode w = .ok i := by
  cases i with
  | get row col =>
    obtain ⟨hrow, hcol⟩ := Bool.and_eq_true_iff.mp hwf
    exact ⟨_, rfl, by rw [decode_get, sext8_field8 hrow, sext8_field8 hcol]; rfl⟩
  | set row col v =>
    obtain ⟨hcell, hv⟩ := Bool.and_eq_true_iff.mp hwf
    obtain ⟨hrow, hcol⟩ := Bool.and_eq_true_iff.mp hcell
    exact ⟨_, rfl, by rw [decode_set, sext8_field8 hrow, sext8_field8 hcol, sext8_field8 hv]⟩
  | del row col =>
    obtain ⟨hrow, hcol⟩ := Bool.and_eq_true_iff.mp hwf
    exact ⟨_, rfl, by rw [decode_del, sext8_field8 hrow, sext8_field8 hcol]; rfl⟩
  | fill v => exact ⟨_, rfl, by rw [decode_fill, sext8_field8 hwf]; rfl⟩
  | ldbm operand =>
    cases operand with
    | header r c => exact ⟨_, rfl, by rw [decode_ldbm]; rfl⟩
    | matrix m => exact absurd rfl (hm m)
  | flush => exact ⟨_, rfl, by rw [decode_flush]; rfl⟩
  | encsys osc => exact ⟨_, rfl, decode_encsys_bit osc⟩
  | encblk mode => exact ⟨_, rfl, by rw [decode_encblk, sext8_field8 hwf]; rfl⟩
  | encbrt level => exact ⟨_, rfl, by rw [decode_encbrt, sext8_field8 hwf]; rfl⟩
  | setblk mode => exact ⟨_, rfl, by rw [decode_setblk, sext8_field8 hwf]; rfl⟩
  | setbrt level => exact ⟨_, rfl, by rw [decode_setbrt, sext8_field8 hwf]; rfl⟩

/-! ### Framing -/

/-- A word that is no legal LDBM header stands alone (R60). -/
theorem requestLength_of_not_header {w : Word} (h : ∀ r c, decode w ≠ .ok (.ldbm (.header r c))) :
    requestLength w = 1 := by
  rw [requestLength, payloadLength]
  split
  · next r c hd => exact absurd hd (h r c)
  · rfl

/-- An illegal word is framed as one, whatever follows it (R61). -/
theorem decodeRequest_of_decode_error {w : Word} {why : Illegal} (h : decode w = .error why) (rest : List Word) :
    decodeRequest (w :: rest) = .error (.illegal why) := by
  rw [decodeRequest, h]

/-- The request of a word that is no LDBM header is framed as that word alone (R60). -/
theorem decodeRequest_of_decode_ok {w : Word} {i : Instr} (h : decode w = .ok i)
    (hi : ∀ r c, i ≠ .ldbm (.header r c)) (rest : List Word) : decodeRequest (w :: rest) = .ok (i, rest) := by
  rw [decodeRequest, h]
  split
  · next hd => cases hd
  · next r c hd => cases hd; exact absurd rfl (hi r c)
  · next hd => cases hd; rfl

/-- A legal LDBM header is as long as it and its payload (R60). -/
theorem requestLength_of_header {w : Word} {r c : Fin 256} (h : decode w = .ok (.ldbm (.header r c))) :
    requestLength w = 1 + r.val * c.val := by
  rw [requestLength, payloadLength, h]

/-- A header is framed together with exactly its payload (R59, R60). -/
theorem decodeRequest_header {w : Word} {r c : Fin 256} (h : decode w = .ok (.ldbm (.header r c)))
    {payload : List Word} (hlen : payload.length = r.val * c.val) (rest : List Word) :
    decodeRequest (w :: (payload ++ rest)) =
      .ok (.ldbm (.matrix (payloadMatrix r.val c.val (payload.map sint32))), rest) := by
  rw [decodeRequest, h]
  have henough : ¬ (payload ++ rest).length < r.val * c.val := by rw [List.length_append]; omega
  simp only [if_neg henough]
  rw [← hlen, List.take_left, List.drop_left]

/-- Settles O4: a well-formed request is the decoding of its word by `exists_word_of_wf`, and framing reads one word
wherever that is no header. -/
theorem wordRequestsRoundTrip : Obligations.WordRequestsRoundTrip := by
  refine ⟨fun i hwf hm => ?_, fun w => requestLength_of_not_header, fun w why hd =>
    ⟨requestLength_of_decode_error hd, decodeRequest_of_decode_error hd⟩⟩
  obtain ⟨w, hw, hd⟩ := exists_word_of_wf hwf hm
  refine ⟨w, hw, hd, fun hi => ⟨requestLength_of_not_header fun r c hc => ?_, decodeRequest_of_decode_ok hd hi⟩⟩
  rw [hd] at hc
  cases hc
  exact hi r c rfl

/-! ### LDBM with its matrix -/

theorem length_payloadMatrix (r c : Nat) (e : List Int) : (payloadMatrix r c e).length = r := by
  simp [payloadMatrix]

theorem length_of_mem_payloadMatrix {r c : Nat} {e row : List Int} (h : row ∈ payloadMatrix r c e) :
    row.length = c := by
  obtain ⟨i, -, rfl⟩ := List.mem_map.mp h
  simp

/-- Element `(i, j)` of the payload's matrix is element `i*C + j` of the payload (R59, R90). -/
theorem getD_payloadMatrix {r c i j : Nat} (e : List Int) (hi : i < r) (hj : j < c) :
    ((payloadMatrix r c e).getD i []).getD j 0 = e.getD (i * c + j) 0 := by
  simp [payloadMatrix, hi, hj]

/-- Settles O3: by `decodeRequest_header`, and the three laws of the payload's matrix. -/
theorem headerAndPayloadSpellTheMatrix : Obligations.HeaderAndPayloadSpellTheMatrix := by
  intro a b payload rest hlen
  have hd := decode_header_word a b
  refine ⟨requestLength_of_header hd, _, decodeRequest_header hd hlen rest, length_payloadMatrix ..,
    fun row => length_of_mem_payloadMatrix, fun i j hi hj => ?_⟩
  refine (getD_payloadMatrix _ hi hj).trans ?_
  exact List.getD_map payload 0#32 sint32

/-- The header of a matrix of fewer than 256 rows and columns carries both counts (R59). -/
theorem decode_matrix_header {rows cols : Nat} (hr : rows < 256) (hc : cols < 256) :
    decode (mkWord 0x5 (BitVec.ofNat 8 rows) (BitVec.ofNat 8 cols) 0) =
      .ok (.ldbm (.header ⟨rows, hr⟩ ⟨cols, hc⟩)) := by
  have hfin : ∀ {n : Nat} (hn : n < 256), (BitVec.ofNat 8 n).toFin = ⟨n, hn⟩ := fun hn =>
    Fin.ext (Nat.mod_eq_of_lt hn)
  rw [← fieldsWord_eq_mkWord, decode_header_word, hfin hr, hfin hc]

/-- Settles O5: the header gives the counts back, the payload words the elements, and the elements in row-major order
the matrix. -/
theorem matrixRequestsRoundTrip : Obligations.MatrixRequestsRoundTrip := by
  intro m rest hwf
  obtain ⟨hrows, hcols, hrect, hfits⟩ := matrixFits_iff.mp hwf
  have hlen : (m.flatten.map payloadWord).length = m.length * colCount m := by
    rw [List.length_map, length_flatten_rect hrect]
  refine (decodeRequest_header (decode_matrix_header hrows hcols) hlen rest).trans ?_
  rw [map_sint32_payloadWord hfits, payloadMatrix_flatten hrect]

end Sys2Proof
end

section
/-! PROOFS. The assembler (R68): every line of numbers that fit gives the word of its fields, and a line with an operand
that does not fit is refused. -/

namespace Sys2Proof.Machine

open Sys2Proof.Claims

/-! ### Operands that fit -/

/-- The operands of a well-formed request are encoded. -/
theorem assembleInstr_of_wf {i : Instr} (h : i.wf = true) : assembleInstr i = some (encode i) := if_pos h

/-- An operand that does not fit is an assembler error. -/
theorem assembleInstr_of_not_wf {i : Instr} (h : i.wf = false) : assembleInstr i = none := by
  rw [assembleInstr, h]
  rfl

/-- The request that a word decodes to assembles to that word. -/
theorem assembleInstr_of_decode {w : Word} {i : Instr} (h : decode w = .ok i) : assembleInstr i = some [w] := by
  obtain ⟨hwf, hw⟩ := decodedWordsReencode w i h
  rw [assembleInstr_of_wf hwf, hw]

/-- A count of eight bits is an LDBM count. -/
theorem asmCount_toNat (a : Byte) : asmCount (a.toNat : Int) = some a.toFin := by
  have ha := a.isLt
  rw [asmCount, if_pos (by omega), Int.toNat_natCast]
  exact congrArg some (Fin.ext (Nat.mod_eq_of_lt ha))

/-- A header line gives the word of its two counts. -/
theorem assembleHeader_toNat (a b : Byte) :
    assembleHeader (a.toNat : Int) (b.toNat : Int) = some [fieldsWord 0x5 a b 0 0] := by
  rw [assembleHeader, asmCount_toNat, asmCount_toNat]
  exact assembleInstr_of_decode (decode_header_word a b)

/-- The signed value of a word fits a payload word and is carried by that word. -/
theorem assembleLine_word (w : Word) : assembleLine ⟨.word, [.num w.toInt]⟩ = some [w] := by
  have hfits : fitsSint32 w.toInt = true := fitsSint32_iff.mpr (by
    have hlow := BitVec.le_toInt w
    have hhigh := BitVec.toInt_lt (x := w)
    omega)
  change (if fitsSint32 w.toInt then some [payloadWord w.toInt] else none) = _
  rw [if_pos hfits, payloadWord, BitVec.ofInt_toInt]

/-- Settles O59: each mnemonic's line assembles the request that the word of its fields decodes to. -/
theorem assemblerEncodesOperandsThatFit : Obligations.AssemblerEncodesOperandsThatFit :=
  ⟨fun a b v => ⟨assembleInstr_of_decode (decode_get_word a b), assembleInstr_of_decode (decode_set_word a b v),
    assembleInstr_of_decode (decode_del_word a b), assembleInstr_of_decode (decode_fill_word v),
    assembleHeader_toNat a b, assembleInstr_of_decode decode_flush_word,
    assembleInstr_of_decode (decode_encsys_bit false), assembleInstr_of_decode (decode_encsys_bit true),
    assembleInstr_of_decode (decode_encblk_word a), assembleInstr_of_decode (decode_encbrt_word a),
    assembleInstr_of_decode (decode_setblk_word a), assembleInstr_of_decode (decode_setbrt_word a)⟩, assembleLine_word⟩

/-! ### Operands that do not fit -/

theorem fitsSext8_of_outside8 {n : Int} (h : outside8 n) : fitsSext8 n = false := by
  rw [Bool.eq_false_iff, Ne, fitsSext8_iff]
  unfold outside8 at h
  omega

theorem asmCount_of_outsideCount {n : Int} (h : outsideCount n) : asmCount n = none := by
  unfold outsideCount at h
  exact if_neg (by omega)

/-- A header line with a count out of its field is refused, whatever the other count is. -/
theorem assembleHeader_outside {r c : Int} (h : outsideCount r ∨ outsideCount c) : assembleHeader r c = none := by
  rcases h with h | h <;> simp [assembleHeader, asmCount_of_outsideCount h]

/-- `.word` takes no number outside the signed 32-bit range. -/
theorem assembleLine_word_outside {n : Int} (h : outside32 n) : assembleLine ⟨.word, [.num n]⟩ = none := by
  have hfits : ¬ fitsSint32 n = true := by
    rw [fitsSint32_iff]
    unfold outside32 at h
    omega
  exact if_neg hfits

/-- A pair of coordinates with one out of its field makes GET and DEL ill-formed. -/
theorem fitsSext8_pair_of_outside8 {row col : Int} (h : outside8 row ∨ outside8 col) :
    (fitsSext8 row && fitsSext8 col) = false := by
  rcases h with h | h <;> simp [fitsSext8_of_outside8 h]

/-- One operand of SET out of its field makes it ill-formed, whatever the other two are. -/
theorem set_wf_of_outside8 {row col v : Int} (h : outside8 row ∨ outside8 col ∨ outside8 v) :
    (Instr.set row col v).wf = false := by
  rcases h with h | h | h <;> simp [Instr.wf, fitsSext8_of_outside8 h]

/-- ENCSYS takes no number but 0 and 1. -/
theorem assembleLine_encsys_other {n : Int} (h0 : n ≠ 0) (h1 : n ≠ 1) :
    assembleLine ⟨.encsys, [.num n]⟩ = none := by
  have hosc : asmOsc (.num n) = none := by simp [asmOsc, h0, h1]
  change (asmOsc (.num n)).bind _ = none
  rw [hosc]
  rfl

/-- Settles O7: the lines with fixed operands are computed; LOAD is the encoding of its matrix; and each other line is
refused because its operand does not fit. -/
theorem assemblerExpandsAndRefuses : Obligations.AssemblerExpandsAndRefuses := by
  refine ⟨by decide, by decide, by decide, by decide, by decide, by decide, by decide, by decide, by decide, by decide,
    by decide, fun m hm => assembleInstr_of_wf hm, fun m hm => assembleInstr_of_not_wf hm, fun row col h => ?pair,
    fun row col v h => assembleInstr_of_not_wf (set_wf_of_outside8 h), fun n h => ?single,
    fun r c h => assembleHeader_outside h, fun n => assembleLine_encsys_other, fun n => assembleLine_word_outside⟩
  case pair =>
    have hpair := fitsSext8_pair_of_outside8 h
    exact ⟨assembleInstr_of_not_wf hpair, assembleInstr_of_not_wf hpair⟩
  case single =>
    have hn := fitsSext8_of_outside8 h
    exact ⟨assembleInstr_of_not_wf hn, assembleInstr_of_not_wf hn, assembleInstr_of_not_wf hn,
      assembleInstr_of_not_wf hn, assembleInstr_of_not_wf hn⟩

end Sys2Proof.Machine
end

section
/-! PROOFS. The step beside its request: it always answers (R113), what it does with the ports (R44, R99, R138), with
reset asserted (R115, R127) and in DEAD mode (R109, R111). -/

namespace Sys2Proof.Machine

open Sys2Proof.Claims

/-! ### One step in each of its situations -/

/-- Settles O17: every step is one of `step_case`, every request has one of `exec_effect`. -/
theorem nothingEverStops : Obligations.NothingEverStops :=
  ⟨fun s => (step_case s).imp fun _ h => h.1, fun i s => (exec_effect i s).imp fun _ h => h.1⟩

/-- Settles O9: by `step_of_presents` the step is the request step, which performs what the word decodes to. -/
theorem stepRunsTheDecodedRequest : Obligations.StepRunsTheDecodedRequest := by
  intro s w ws i h hd
  have hld : (taken s ws).ld = .none := h.collector
  rw [step_of_presents h, reqStep_request hld hd]

/-- Settles O16: a block that is not busy serves the host, and there is no word to take. -/
theorem idleBlockWaitsForAWord : Obligations.IdleBlockWaitsForAWord := by
  intro s hreset hbusy hwords
  obtain ⟨hmode, hqueue⟩ := not_busy_iff.mp hbusy
  exact step_no_word hreset hqueue hmode hwords

/-- Settles O13: the step of a sending block polls the transport: with `none` lined up only the port moves on, with
nothing lined up the free value decides. -/
theorem unansweredItemsWaitAndFreeRepliesDecide : Obligations.UnansweredItemsWaitAndFreeRepliesDecide := by
  intro s item rest h
  have hqueue : s.txq ≠ [] := by simp [h.queued]
  have hstep := step_busy h.noReset hqueue
  refine ⟨fun rs hrep => ?lined, fun hrep => ?free⟩
  case lined =>
    have hrep' : (takeResetSample s).replies = none :: rs := hrep
    rw [hstep, pollTransport, reply_cons hrep']
    exact congrArg _ (takeReply_cons hrep')
  case free =>
    have hrep' : (takeResetSample s).replies = [] := hrep
    rw [hstep, pollTransport, reply_nil hrep', takeReply_nil hrep']
    change Host.Outcome.next (match Config.transportReply s.draws with | some ans => _ | none => _) = _
    cases Config.transportReply s.draws <;> rfl

/-! ### Reset -/

/-- With reset asserted the step applies it and takes the sample (R115, R127). -/
theorem step_of_resetIn {s : State} {samples : List Bool} (h : s.resetIn = true :: samples) :
    step s = .next (applyReset { s with resetIn := samples }) := by
  have htake : takeResetSample s = { s with resetIn := samples } := by rw [takeResetSample, h]; rfl
  rw [step_reset (by rw [State.resetAsserted, h]; rfl), htake]

/-- Settles O14: reset empties the framebuffer and queues the reset sequence, which is R124's list. -/
theorem resetWinsInEveryState : Obligations.ResetWinsInEveryState := by
  intro s samples h
  refine ⟨_, step_of_resetIn h, memRead_of_buf_nil rfl, ?_⟩
  rw [← resetSequence_eq_nineteenItems]
  rfl

/-- Settles O56: reset starts the trace the views read afresh and shortens no part of the whole trace. -/
theorem resetMakesTheChipUnknown : Obligations.ResetMakesTheChipUnknown := by
  intro s samples h
  exact ⟨_, step_of_resetIn h, applyReset_transportTrace _, fun _ => rfl, fun _ => rfl⟩

/-! ### The trace and the words -/

/-- Settles O52: only an answered item is emitted, and it is the head of the queue. -/
theorem traceGrowsByTheHeadOfTheQueue : Obligations.TraceGrowsByTheHeadOfTheQueue := by
  intro s t h
  cases stepCase_of_step h with
  | reset => exact .inl (applyReset_transportTrace _)
  | answered _ item rest hq ans =>
    have htrace := txStep_trace (s := takeReply (takeResetSample s)) (by simpa using hq) ans
    exact .inr ⟨item, rest, ans, hq, transportTrace_append (by simp) (by simpa using htrace)⟩
  | unanswered => exact .inl (by simp [State.transportTrace])
  | idle | payload | illegal => exact .inl rfl
  | request _ _ _ w ws _ i _ he => exact .inl he.transportTrace

/-- Settles O53: reset and the steps of a busy block take no word; the steps that take one emit nothing. -/
theorem noStepTakesAWordAndEmitsAnItem : Obligations.NoStepTakesAWordAndEmitsAnItem := by
  intro s t h
  cases stepCase_of_step h with
  | reset | idle => exact .inl rfl
  | answered | unanswered => exact .inl (by simp)
  | payload | illegal => exact .inr rfl
  | request _ _ _ w ws _ i _ he => exact .inr he.transportTrace

/-! ### The mode -/

/-- A transport step changes the mode only where it ends the reset sequence (R20, R125, R126). -/
theorem txStep_mode {s : State} {item : TxItem} {rest : List TxItem} (hq : s.txq = item :: rest) (ans : Answer) :
    (txStep ans s).mode = s.mode ∨ s.mode = .init ∧ (txStep ans s).txq = [] := by
  rcases txStep_cases hq ans with ⟨_, _, h⟩ | ⟨_, _, hm, h⟩ | ⟨_, _, _, h⟩ | ⟨_, hm, h⟩ | ⟨_, _, h⟩ <;> rw [h]
  · exact .inl rfl
  · exact .inr ⟨hm, rfl⟩
  · exact .inl rfl
  · exact .inr ⟨hm, rfl⟩
  · exact .inl rfl

/-- Settles O44: no effect of a request writes the mode, and of a step only the transport step may. -/
theorem modeChangesOnlyInTheResetSequence : Obligations.ModeChangesOnlyInTheResetSequence := by
  refine ⟨fun i s t h => (effect_of_exec h).mode, fun s t h hreset hchange => ?_⟩
  cases stepCase_of_step h with
  | reset hr => simp [hr] at hreset
  | answered _ item rest hq ans =>
    have hq' : (takeReply (takeResetSample s)).txq = item :: rest := by simpa using hq
    rcases txStep_mode hq' ans with hsame | ⟨hinit, hempty⟩
    · exact absurd (by simpa using hsame) hchange
    · exact ⟨by simpa using hinit, by simp [hq], hempty⟩
  | unanswered => exact absurd (by simp) hchange
  | idle | payload | illegal => exact absurd rfl hchange
  | request _ _ _ w ws _ i _ he => exact absurd he.mode hchange

/-- In DEAD mode a request stores nothing and queues nothing (R109). -/
theorem Effect.of_dead {s t : State} {i : Instr} (h : Effect s i t) (hdead : s.mode = .dead) :
    t.buf = s.buf ∧ t.txq = s.txq := by
  cases h with
  | answered | failed | collect => exact ⟨rfl, rfl⟩
  | storeCell _ _ _ live | fillRows _ live | loadRows _ live | snapshot live | dispatchBlk _ live
  | dispatchBrt _ live => exact absurd hdead live

/-- Settles O43: in DEAD mode a request stores and queues nothing, and a transport step, were there one, changes no
row and leaves the mode. -/
theorem deadModeLastsUntilReset : Obligations.DeadModeLastsUntilReset := by
  intro s t hdead hreset h
  cases stepCase_of_step h with
  | reset hr => simp [hr] at hreset
  | answered _ item rest hq ans =>
    have hq' : (takeReply (takeResetSample s)).txq = item :: rest := by simpa using hq
    have hmode := (txStep_mode hq' ans).resolve_right (by simp [hdead])
    exact ⟨by simpa [hdead] using hmode, fun hnone => by simp [hq] at hnone, memRead_eq_of_buf (by simp)⟩
  | unanswered => exact ⟨by simpa using hdead, fun hnone => by simpa using hnone, memRead_eq_of_buf (by simp)⟩
  | idle | payload | illegal => exact ⟨hdead, id, fun _ => rfl⟩
  | request _ hq _ w ws _ i _ he =>
    obtain ⟨hbuf, htxq⟩ := he.of_dead hdead
    exact ⟨he.mode.trans hdead, fun _ => htxq.trans hq, memRead_eq_of_buf hbuf⟩

end Sys2Proof.Machine
end

section
/-! PROOFS. The invariant of Safety.lean (R15, R20, R23, R25, R37, R64, R105, R126, R134): reset establishes it and
every step keeps it, operation by operation. -/

namespace Sys2Proof.Machine

open Sys2Proof.Claims

/-! ### Reset -/

theorem length_resetSequence : resetSequence.length = 19 := by
  rw [resetSequence_eq_nineteenItems, nineteenItems_length]

theorem legal_of_mem_resetSequence : ∀ item ∈ resetSequence, item.legal = true := by decide

/-- Every register write of the reset sequence carries 0x00 (R124). -/
theorem data_of_reg_mem_resetSequence {a : BitVec 4} {b : Byte} (h : TxItem.reg a b ∈ resetSequence) : b = 0x00 := by
  rw [resetSequence_eq_nineteenItems] at h
  have hrow : ∃ i < 16, BitVec.ofNat 4 i = a ∧ 0x00 = b := by simpa [nineteenItems] using h
  obtain ⟨_, _, _, hb⟩ := hrow
  exact hb.symm

/-- The reset state satisfies the invariant where every item emitted so far was legal. -/
theorem inv_applyReset {s : State} (h : ∀ event ∈ s.transportTrace, event.1.legal = true) : (applyReset s).Inv where
  memory := rfl
  queueBound := length_resetSequence.le
  initQueue _ := ⟨List.ne_nil_of_length_pos (by simp [length_resetSequence]), List.suffix_refl _⟩
  initRest _ := ⟨rfl, rfl, rfl, rfl⟩
  deadRest := by rintro ⟨⟩
  status := status_code_le .ok
  collector := by rintro _ _ _ ⟨⟩
  snapshot _ _ hmem := data_of_reg_mem_resetSequence hmem
  queueLegal := legal_of_mem_resetSequence
  traceLegal := by rwa [applyReset_transportTrace]

/-- Settles O54: the state is that of a reset with nothing emitted before. -/
theorem resetSatisfiesTheInvariant : Obligations.ResetSatisfiesTheInvariant := by
  intro words replies draws resetIn
  exact inv_applyReset (by rintro _ ⟨⟩)
    (s := { State.reset with words := words, replies := replies, draws := draws, resetIn := resetIn })

/-! ### The operations -/

namespace State.Inv

variable {s : State}

/-- The invariant does not speak of the ports. -/
theorem ports (h : s.Inv) (words : List Word) (replies : List (Option Answer)) (draws : Nat) (resetIn : List Bool) :
    State.Inv { s with words := words, replies := replies, draws := draws, resetIn := resetIn } :=
  ⟨h.memory, h.queueBound, h.initQueue, h.initRest, h.deadRest, h.status, h.collector, h.snapshot, h.queueLegal,
    h.traceLegal⟩

theorem takeResetSample (h : s.Inv) : (takeResetSample s).Inv := h.ports _ _ _ _

theorem takeReply (h : s.Inv) : (takeReply s).Inv := by
  unfold Machine.takeReply
  split <;> exact h.ports _ _ _ _

/-- A response keeps the invariant outside the reset sequence, which leaves the response at its reset value. -/
theorem respond (h : s.Inv) (hm : s.mode ≠ .init) (st : Status) (d : Byte) : (respond st d s).Inv :=
  { h with
    initRest := fun hinit => absurd hinit hm
    status := status_code_le st }

/-- With nothing queued, a live block may store any canonical framebuffer. -/
theorem store (h : s.Inv) (hm : s.mode ≠ .init) (live : s.mode ≠ .dead) (hq : s.txq = []) {buf : Memory}
    (hwf : buf.wf = true) : State.Inv { s with buf := buf } :=
  { h with
    memory := hwf
    initRest := fun hinit => absurd hinit hm
    deadRest := fun hdead => absurd hdead live
    snapshot := fun a b hmem => by simp [hq] at hmem }

/-- A collector that misses some payload may run while nothing is queued. -/
theorem collect (h : s.Inv) (hm : s.mode ≠ .init) (hq : s.txq = []) {r c : Fin 256} {e : List Int}
    (hlen : e.length < r.val * c.val) : State.Inv { s with ld := .collecting r c e } :=
  { h with
    initRest := fun hinit => absurd hinit hm
    collector := by
      rintro _ _ _ ⟨⟩
      exact ⟨hlen, hq⟩ }

/-- The collector may be cleared at any time. -/
theorem clearCollector (h : s.Inv) : State.Inv { s with ld := .none } :=
  { h with
    initRest := fun hinit => ⟨(h.initRest hinit).1, rfl, (h.initRest hinit).2.2⟩
    collector := by rintro _ _ _ ⟨⟩ }

/-- A live block that awaits no payload may queue at most 19 legal items whose register writes carry their rows. -/
theorem queue (h : s.Inv) (hm : s.mode ≠ .init) (live : s.mode ≠ .dead) (hld : s.ld = .none) {items : List TxItem}
    (hbound : items.length ≤ 19) (hsnapshot : ∀ a b, TxItem.reg a b ∈ items → b = s.buf.read a.toNat)
    (hlegal : ∀ item ∈ items, item.legal = true) : (queueItems items s).Inv :=
  { h with
    queueBound := hbound
    initQueue := fun hinit => absurd hinit hm
    deadRest := fun hdead => absurd hdead live
    collector := fun r c e hc => by simp [hld] at hc
    snapshot := hsnapshot
    queueLegal := hlegal }

/-- A setter's one raw write of a command byte may be queued (R64). -/
theorem queueRaw (h : s.Inv) (hm : s.mode ≠ .init) (live : s.mode ≠ .dead) (hld : s.ld = .none) {b : Byte}
    (hb : isCommandByte b = true) : (queueItems [.raw b] s).Inv := by
  refine h.queue hm live hld (by simp) (fun a b hmem => ?_) fun item hmem => ?_
  · cases List.mem_singleton.mp hmem
  · rw [List.mem_singleton.mp hmem]
    exact hb

end State.Inv

/-! ### Requests -/

/-- A register write of the snapshot carries its row (R94, R134). -/
theorem data_of_reg_mem_flushItems {m : Memory} {a : BitVec 4} {b : Byte} (h : TxItem.reg a b ∈ flushItems m) :
    b = m.read a.toNat := by
  obtain ⟨r, -, hr⟩ := List.mem_map.mp h
  cases hr
  rw [BitVec.toNat_ofNat, Nat.mod_eq_of_lt r.isLt]

theorem legal_of_mem_flushItems {m : Memory} {item : TxItem} (h : item ∈ flushItems m) : item.legal = true := by
  obtain ⟨r, -, rfl⟩ := List.mem_map.mp h
  rfl

/-- A request taken between requests keeps the invariant, whatever its effect is. -/
theorem Effect.inv {s t : State} {i : Instr} (he : Effect s i t) (h : s.Inv) (hm : s.mode ≠ .init) (hq : s.txq = [])
    (hld : s.ld = .none) : t.Inv := by
  cases he with
  | answered | failed => exact h.respond hm _ _
  | storeCell row col v live => exact (h.store hm live hq (Memory.wf_write _ _ h.memory)).respond hm _ _
  | fillRows v live => exact
    (h.store hm live hq (wf_writeRows (fun _ => if v = 1 then 0xFF else 0x00) h.memory)).respond hm _ _
  | loadRows m live => exact (h.store hm live hq (wf_writeRows (rowsOf m) h.memory)).respond hm _ _
  | collect r c some => exact h.collect hm hq (Nat.pos_of_ne_zero some)
  | snapshot live =>
    exact h.queue hm live hld (by simp [flushItems, allRows]) (fun _ _ => data_of_reg_mem_flushItems)
      fun _ => legal_of_mem_flushItems
  | dispatchBlk mode live => exact h.queueRaw hm live hld (isCommandByte_encBlk _)
  | dispatchBrt level live => exact h.queueRaw hm live hld (isCommandByte_encBrt _)

/-! ### The transport step -/

section Emitted

variable {s t : State} {item : TxItem} {rest : List TxItem} {ans : Answer}

/-- What an emission keeps whatever its answer is: the framebuffer, the collector's part and the legality of all items,
where only items of the rest stay queued. What it does to the mode and the response is left to say. -/
theorem State.Inv.emitted (h : s.Inv) (hq : s.txq = item :: rest) (hbuf : t.buf = s.buf) (hld : t.ld = s.ld)
    (htrace : t.transportTrace = s.transportTrace ++ [(item, ans)]) (hrest : t.txq <:+ rest)
    (hinit : t.mode = .init → (t.txq ≠ [] ∧ t.txq <:+ resetSequence) ∧
      t.buf = [] ∧ t.ld = .none ∧ t.rspStatus = 0 ∧ t.rspData = 0)
    (hdead : t.mode = .dead → t.txq = [] ∧ t.buf = []) (hstatus : t.rspStatus.toNat ≤ 7) : t.Inv where
  memory := hbuf ▸ h.memory
  queueBound := by
    have hbound := h.queueBound
    have hle := hrest.length_le
    rw [hq, List.length_cons] at hbound
    omega
  initQueue hm := (hinit hm).1
  initRest hm := (hinit hm).2
  deadRest := hdead
  status := hstatus
  collector r c e hc := by
    have hnone := (h.collector r c e (hld ▸ hc)).2
    simp [hq] at hnone
  snapshot a b hmem := by
    rw [hbuf]
    exact h.snapshot a b (hq ▸ List.mem_cons_of_mem _ (hrest.subset hmem))
  queueLegal x hmem := h.queueLegal x (hq ▸ List.mem_cons_of_mem _ (hrest.subset hmem))
  traceLegal event hmem := by
    rw [htrace, List.mem_append, List.mem_singleton] at hmem
    rcases hmem with hold | rfl
    · exact h.traceLegal event hold
    · exact h.queueLegal item (hq ▸ List.mem_cons_self)

/-- A transport step keeps the invariant: in the reset sequence the rest of it stays queued, or the mode becomes RUN, or
DEAD with the framebuffer still empty; in RUN mode the response is the only other change. -/
theorem State.Inv.txStep (h : s.Inv) (hq : s.txq = item :: rest) (ans : Answer) : (txStep ans s).Inv := by
  have htrace := transportTrace_append (txStep_traceBefore ans s) (txStep_trace hq ans)
  have hlive : s.mode ≠ .dead := fun hdead => by simpa [hq] using (h.deadRest hdead).1
  rcases txStep_cases hq ans with ⟨_, hmore, e⟩ | ⟨_, _, hm, e⟩ | ⟨_, _, hm, e⟩ | ⟨_, hm, e⟩ | ⟨_, hm, e⟩ <;>
    rw [e] at htrace ⊢
  · refine h.emitted hq rfl rfl htrace (List.suffix_refl _) (fun hinit => ⟨⟨hmore, ?_⟩, h.initRest hinit⟩)
      (fun hdead => absurd hdead hlive) h.status
    exact (List.suffix_cons item rest).trans (hq ▸ (h.initQueue hinit).2)
  · exact h.emitted hq rfl rfl htrace (List.nil_suffix) (by rintro ⟨⟩) (by rintro ⟨⟩) h.status
  · exact h.emitted hq rfl rfl htrace (List.nil_suffix) (fun hinit => absurd hinit hm)
      (fun hdead => absurd hdead hlive) (status_code_le _)
  · exact h.emitted hq rfl rfl htrace (List.nil_suffix) (by rintro ⟨⟩) (fun _ => ⟨rfl, (h.initRest hm).1⟩)
      (status_code_le _)
  · exact h.emitted hq rfl rfl htrace (List.nil_suffix) (fun hinit => absurd hinit hm)
      (fun hdead => absurd hdead hlive) (status_code_le _)

end Emitted

/-! ### The step -/

/-- Settles O55: each case of a step is one of the operations above, on the state with the ports' samples taken. -/
theorem stepKeepsTheInvariant : Obligations.StepKeepsTheInvariant := by
  intro s t h hstep
  have hsample := h.takeResetSample
  cases stepCase_of_step hstep with
  | reset => exact inv_applyReset hsample.traceLegal
  | answered _ item rest hq ans => exact hsample.takeReply.txStep (by simpa using hq) ans
  | unanswered => exact hsample.takeReply
  | idle => exact hsample
  | payload _ hq hm w ws _ r c e hl hlen =>
    have hmissing := (h.collector r c e hl).1
    have hmore : (e ++ [sint32 w]).length < r.val * c.val := by
      rw [List.length_append, List.length_singleton]
      omega
    exact (hsample.ports ws _ _ _).collect hm hq hmore
  | illegal _ _ hm w ws => exact (hsample.ports ws _ _ _).respond hm _ _
  | request _ hq hm w ws _ i _ he => exact he.inv (hsample.ports ws _ _ _).clearCollector hm hq rfl

end Sys2Proof.Machine
end

section
/-! PROOFS. The frames of the requests (R17, R40, R42, R83, R93, R104, R110), the statuses they write (R106), and their
idempotence (R42), each read off the effects of Laws/Exec.lean. -/

namespace Sys2Proof.Machine

open Sys2Proof.Claims

section Frames

variable {s t : State} {i : Instr}

/-! ### Rows -/

/-- A request that is no SET, FILL or LDBM of a matrix leaves the framebuffer (R17). -/
theorem Effect.buf_of_not_writes (h : Effect s i t) (hi : writesFramebuffer i = false) : t.buf = s.buf := by
  cases h with
  | answered | failed | collect | snapshot | dispatchBlk | dispatchBrt => rfl
  | storeCell | fillRows | loadRows => cases hi

/-- Settles O48: by the requests' effects, and because a transport step never touches the framebuffer. -/
theorem onlyStoringRequestsWriteTheFramebuffer : Obligations.OnlyStoringRequestsWriteTheFramebuffer := by
  refine ⟨fun i s t hi h => memRead_eq_of_buf ((effect_of_exec h).buf_of_not_writes hi), fun s t hreset hq h => ?_⟩
  rw [step_busy hreset hq] at h
  cases h
  rcases pollTransport_cases (takeResetSample s) with ⟨ans, _, e⟩ | ⟨_, e⟩ <;> rw [e] <;>
    exact memRead_eq_of_buf (by simp)

/-- Settles O24: of SET's effects only the store writes the framebuffer, and that in one row. -/
theorem setStoresToItsRowOnly : Obligations.SetStoresToItsRowOnly := by
  intro row col v s t h
  cases effect_of_exec h with
  | answered | failed => exact ⟨fun _ _ => rfl, rfl⟩
  | storeCell => exact ⟨fun r hr => memRead_memWrite_other hr _ s, rfl⟩

/-! ### The other fields -/

/-- A request that only answers writes its response and nothing else (R40, R42, R73, R80). -/
theorem Effect.eq_of_onlyAnswers (h : Effect s i t) (hi : onlyAnswers i = true) :
    t = { s with rspStatus := t.rspStatus, rspData := t.rspData } := by
  cases h with
  | answered | failed => rfl
  | storeCell | fillRows | loadRows | collect | snapshot | dispatchBlk | dispatchBrt => cases hi

/-- Settles O45: the frame is that of the effects, and it holds every row. -/
theorem answeringRequestsFrame : Obligations.AnsweringRequestsFrame := by
  intro i s t hi h
  have hframe := (effect_of_exec h).eq_of_onlyAnswers hi
  exact ⟨memRead_eq_of_buf (by rw [hframe]), hframe⟩

/-- A request that uses the transport changes the queue alone or the response alone (R93, R97, R104). -/
theorem Effect.eq_of_usesTransport (h : Effect s i t) (hi : usesTransport i = true) :
    t = { s with txq := t.txq } ∨ t = { s with rspStatus := t.rspStatus, rspData := t.rspData } := by
  cases h with
  | answered | failed => exact .inr rfl
  | snapshot | dispatchBlk | dispatchBrt => exact .inl rfl
  | storeCell | fillRows | loadRows | collect => cases hi

/-- Settles O46: both frames of the effects leave the framebuffer as it was. -/
theorem transportRequestsFrame : Obligations.TransportRequestsFrame := by
  intro i s t hi h
  have hframe := (effect_of_exec h).eq_of_usesTransport hi
  refine ⟨memRead_eq_of_buf ?_, hframe⟩
  rcases hframe with hqueue | hresponse
  · rw [hqueue]
  · rw [hresponse]

theorem foldl_memWrite_eq (v : Fin 16 → Byte) (rows : List (Fin 16)) (s : State) :
    rows.foldl (fun t r => memWrite r (v r) t) s =
      { s with buf := (rows.foldl (fun t r => memWrite r (v r) t) s).buf } := by
  induction rows generalizing s with
  | nil => rfl
  | cons r rest ih => exact ih (memWrite r (v r) s)

/-- Writing every row changes the framebuffer alone (R83). -/
theorem writeRows_eq (v : Fin 16 → Byte) (s : State) : writeRows v s = { s with buf := (writeRows v s).buf } :=
  foldl_memWrite_eq v allRows s

/-- A request that stores every row changes the framebuffer and the response and nothing else. -/
theorem respond_writeRows_eq (v : Fin 16 → Byte) (s : State) : respond .ok 0x00 (writeRows v s) =
    { s with buf := (respond .ok 0x00 (writeRows v s)).buf, rspStatus := (respond .ok 0x00 (writeRows v s)).rspStatus,
             rspData := (respond .ok 0x00 (writeRows v s)).rspData } := by
  rw [writeRows_eq v s]
  rfl

/-- Settles O47: FILL and LDBM store only where they answer OK; a header stores nothing. -/
theorem bulkRequestsFrame : Obligations.BulkRequestsFrame := by
  refine ⟨fun v s t h => ?fill, fun m s t h => ?matrix, fun r c s t h => ?header⟩
  case fill =>
    cases effect_of_exec h with
    | answered | failed => exact ⟨rfl, fun _ _ => rfl⟩
    | fillRows => exact ⟨respond_writeRows_eq _ s, fun hfailed => absurd (respond_rspStatus ..) hfailed⟩
  case matrix =>
    cases effect_of_exec h with
    | answered | failed => exact ⟨rfl, fun _ _ => rfl⟩
    | loadRows => exact ⟨respond_writeRows_eq _ s, fun hfailed => absurd (respond_rspStatus ..) hfailed⟩
  case header =>
    cases effect_of_exec h with
    | answered | failed => exact ⟨fun _ => rfl, .inr rfl⟩
    | collect => exact ⟨fun _ => rfl, .inl rfl⟩

/-! ### Failures and statuses -/

/-- Settles O49: an effect after which the status is not OK is a failure, or one of those that write no response. -/
theorem failuresChangeOnlyTheResponse : Obligations.FailuresChangeOnlyTheResponse := by
  intro i s t h hfailed
  cases effect_of_exec h with
  | answered | storeCell | fillRows | loadRows => exact absurd rfl hfailed
  | failed => exact .inl rfl
  | collect r c => exact .inr (.inr ⟨⟨r, c, rfl⟩, nofun, rfl⟩)
  | snapshot | dispatchBlk | dispatchBrt => exact .inr (.inl ⟨rfl, nofun, rfl⟩)

/-- The codes of the statuses of an effect are those of the table (R105, R106). -/
theorem statusesOf_eq_map_code (i : Instr) : statusesOf i = (endStatuses i).map Status.code := by
  cases i with
  | ldbm operand => cases operand <;> rfl
  | get | set | del | fill | flush | encsys | encblk | encbrt | setblk | setbrt => rfl

theorem code_mem_statusesOf {st : Status} (h : st ∈ endStatuses i) : st.code ∈ statusesOf i := by
  rw [statusesOf_eq_map_code]
  exact List.mem_map_of_mem h

/-- Settles O50: an effect that responds does so with a status of the request's row, and those that do not are the
effects of requests that may defer. -/
theorem statusesOfEachRequest : Obligations.StatusesOfEachRequest := by
  intro i s t h
  cases effect_of_exec h with
  | answered _ _ ends => exact .inl (code_mem_statusesOf ends)
  | failed _ _ _ ends => exact .inl (code_mem_statusesOf ends)
  | storeCell | fillRows | loadRows => exact .inl (code_mem_statusesOf (st := .ok) (by simp [endStatuses]))
  | collect | snapshot | dispatchBlk | dispatchBrt => exact .inr ⟨rfl, rfl, rfl⟩

end Frames

/-! ### The header of LDBM -/

/-- A header with an empty payload is performed at once as LDBM of its matrix of empty rows (R90). -/
theorem exec_header_empty {r c : Fin 256} (h : r.val * c.val = 0) (s : State) :
    exec (.ldbm (.header r c)) s = exec (.ldbm (.matrix (List.replicate r.val []))) s :=
  congrArg Host.Outcome.next (if_pos h)

/-- Any other header starts the collector and writes no response (R90). -/
theorem exec_header_collects {r c : Fin 256} (h : r.val * c.val ≠ 0) (s : State) :
    exec (.ldbm (.header r c)) s = .next { s with ld := .collecting r c [] } :=
  congrArg Host.Outcome.next (if_neg h)

/-- A matrix of empty rows never has the shape (R84). -/
theorem not_sixteenByEight_replicate_nil (r : Nat) : ¬ sixteenByEight (List.replicate r []) := fun h => by
  have hshape := isShape_iff.mpr h
  rw [isShape_replicate_nil] at hshape
  cases hshape

/-- Settles O32: with no payload the LDBM performed at once is refused for its shape, or in DEAD mode. -/
theorem ldbmHeaderStartsTheCollector : Obligations.LdbmHeaderStartsTheCollector := by
  refine ⟨fun r c s => ⟨fun h => ?_, fun h => exec_header_collects h s⟩, decode_header_word⟩
  rw [exec_header_empty h]
  split
  · next hdead => exact exec_ldbm_dead hdead _
  · next hlive => exact exec_ldbm_misshapen hlive (not_sixteenByEight_replicate_nil _)

/-! ### Idempotence -/

/-- A request that responds in its own step does not read the response it overwrites. -/
theorem exec_respond {i : Instr} (hi : usesTransport i = false)
    (hh : ∀ r c, i = .ldbm (.header r c) → r.val * c.val = 0) (st : Status) (d : Byte) (s : State) :
    exec i (respond st d s) = exec i s := by
  cases i with
  | ldbm operand =>
    cases operand with
    | matrix m => rfl
    | header r c => rw [exec_header_empty (hh r c rfl), exec_header_empty (hh r c rfl)]; rfl
  | get | set | del | fill | encsys | encblk | encbrt => rfl
  | flush | setblk | setbrt => cases hi

/-- In canonical form a framebuffer stored with the rows it had is the framebuffer it was (R123). -/
theorem eq_of_memRead_eq {s t : State} (hs : s.buf.wf = true) (ht : t.buf.wf = true)
    (hframe : t = { s with buf := t.buf }) (h : ∀ r : Fin 16, memRead r t = memRead r s) : t = s := by
  have hbuf : t.buf = s.buf := Memory.eq_of_read_eq ht hs h
  rw [hframe, hbuf]

/-- Writing the same rows twice is writing them once (R83). -/
theorem writeRows_writeRows (v : Fin 16 → Byte) {s : State} (h : s.buf.wf = true) :
    writeRows v (writeRows v s) = writeRows v s :=
  eq_of_memRead_eq (wf_writeRows v h) (wf_writeRows v (wf_writeRows v h)) (writeRows_eq v _) fun r => by
    rw [memRead_writeRows, memRead_writeRows]

/-- Storing a cell twice is storing it once (R79). -/
theorem storeCell_storeCell {row col v : Int} (hc : coordinate row col) (hv : v = 0 ∨ v = 1) {s : State}
    (h : s.buf.wf = true) : storeCell row col v (storeCell row col v s) = storeCell row col v s := by
  have hwf : ∀ {u : State}, u.buf.wf = true → (storeCell row col v u).buf.wf = true := fun hu =>
    Memory.wf_write _ _ hu
  refine eq_of_memRead_eq (hwf h) (hwf (hwf h)) rfl fun r => memRead_eq_of_cell_eq fun c => ?_
  rw [cell_storeCell hc hv, cell_storeCell hc hv]
  split <;> rfl

/-- Settles O51: a header with a payload starts the collector again. Of the other requests an effect that only responds
is repeated because the response is not read, and one that stores because storing twice is storing once. -/
theorem requestsWithoutTransportAreIdempotent : Obligations.RequestsWithoutTransportAreIdempotent := by
  intro i s t hi hwf h
  by_cases hcollects : ∃ r c, i = .ldbm (.header r c) ∧ r.val * c.val ≠ 0
  · obtain ⟨r, c, rfl, hne⟩ := hcollects
    cases (exec_header_collects hne s).symm.trans h
    exact exec_header_collects hne _
  have hresponds : ∀ r c, i = .ldbm (.header r c) → r.val * c.val = 0 := fun r c hic =>
    by_contra fun hne => hcollects ⟨r, c, hic, hne⟩
  cases effect_of_exec h with
  | answered _ d => exact (exec_respond hi hresponds .ok d s).trans h
  | failed _ st => exact (exec_respond hi hresponds st 0x00 s).trans h
  | storeCell row col v live coord bit =>
    have hc := inRange_iff_coordinate.mp coord
    have hv := isBit_iff.mp bit
    rw [exec_respond hi hresponds]
    refine (exec_set_stores (s := storeCell row col v s) live hc hv).trans ?_
    rw [storeCell_storeCell hc hv hwf]
    rfl
  | fillRows v live bit =>
    rw [exec_respond hi hresponds, exec_fill_bit (by exact live) (isBit_iff.mp bit), writeRows_writeRows _ hwf]
    rfl
  | loadRows m live shape bits =>
    have hshape := isShape_iff.mp shape
    have hbits := (allBits_iff_onlyBits hshape).mp bits
    rw [exec_respond hi hresponds, exec_ldbm_loads (by exact live) hshape hbits, writeRows_writeRows _ hwf]
    rfl
  | collect r c hne => exact absurd (hresponds r c rfl) hne
  | snapshot | dispatchBlk | dispatchBrt => cases hi

/-! ### The encoder's answers -/

/-- The command that a byte names, by its selector and its parameter bits (R65). -/
def commandOf (b : Byte) : Instr :=
  if Command.systemSetup.selects b then .encsys (b.getLsbD 0)
  else if Command.blink.selects b then .encblk ((b.extractLsb' 1 2).toNat : Int)
  else .encbrt ((b.extractLsb' 0 4).toNat : Int)

theorem commandOf_encSys (osc : Bool) : commandOf (encSys osc) = .encsys osc := by cases osc <;> rfl

theorem commandOf_encBlk (m : Fin 4) : commandOf (encBlk m) = .encblk (m.val : Int) := by revert m; decide

theorem commandOf_encBrt (l : Fin 16) : commandOf (encBrt l) = .encbrt (l.val : Int) := by revert l; decide

/-- The byte an encoder request answers with OK names that request (R65). -/
theorem commandOf_rspData {i : Instr} {s t : State} (hi : needsDevice i = false)
    (hh : ∀ r c, i ≠ .ldbm (.header r c)) (h : exec i s = .next t) (hok : t.rspStatus = 0) :
    commandOf t.rspData = i := by
  cases i with
  | encsys osc =>
    cases h
    exact commandOf_encSys osc
  | encblk mode =>
    by_cases hm : 0 ≤ mode ∧ mode ≤ 3
    · cases (exec_encblk_valid hm s).symm.trans h
      change commandOf (0x80 ||| 0x01 ||| (BitVec.ofInt 8 mode <<< 1)) = _
      rw [← encBlk_blinkIndex hm, commandOf_encBlk, blinkIndex_val hm]
    · cases (exec_encblk_invalid hm s).symm.trans h
      cases hok
  | encbrt level =>
    by_cases hl : 0 ≤ level ∧ level ≤ 15
    · cases (exec_encbrt_valid hl s).symm.trans h
      change commandOf (0xE0 ||| BitVec.ofInt 8 level) = _
      rw [← encBrt_levelIndex hl, commandOf_encBrt, levelIndex_val hl]
    · cases (exec_encbrt_invalid hl s).symm.trans h
      cases hok
  | ldbm operand =>
    cases operand with
    | header r c => exact absurd rfl (hh r c)
    | matrix m => cases hi
  | get | set | del | fill | flush | setblk | setbrt => cases hi

/-- Settles O21: the common byte names both requests. -/
theorem commandBytesNameTheirCommand : Obligations.CommandBytesNameTheirCommand := by
  intro i j s t u hij hi hj hs hu ht0 hu0 hdata
  obtain ⟨hi', hj'⟩ := Bool.or_eq_false_iff.mp hij
  calc i = commandOf t.rspData := (commandOf_rspData hi' hi hs ht0).symm
    _ = commandOf u.rspData := by rw [hdata]
    _ = j := commandOf_rspData hj' hj hu hu0

end Sys2Proof.Machine
end

section
/-! PROOFS. LDBM by its words (R59, R90): the payload words are collected one a step, and the last one performs the
term; and the cell enumeration (R82). -/

namespace Sys2Proof.Machine

open Sys2Proof.Claims

/-- Settles O27: by the definition of the enumeration over `List.range`. -/
theorem cellEnumerationIsRowMajor : Obligations.CellEnumerationIsRowMajor := by
  refine ⟨by simp [cellEnum], fun k hk => ?_⟩
  rw [cellEnum, List.getElem?_map, List.getElem?_range hk]
  rfl

/-! ### One payload word -/

section Payload

variable {s : State} {r c : Fin 256} {e : List Int} {w : Word} {ws : List Word}
  (hreset : s.resetAsserted = false) (hbusy : s.busy = false) (hld : s.ld = .collecting r c e)
  (hwords : s.words = w :: ws)
include hreset hbusy hld hwords

/-- While the collector runs the presented word is payload (R90, R132). -/
theorem step_of_collecting : step s = payloadStep r c e w (taken s ws) := by
  obtain ⟨hmode, hqueue⟩ := not_busy_iff.mp hbusy
  have hld' : (taken s ws).ld = .collecting r c e := hld
  exact (step_word hreset hqueue hmode hwords).trans (reqStep_collecting hld' w)

/-- A payload word that is not the last only lengthens the collector. -/
theorem step_payload_more (hlen : e.length + 1 < r.val * c.val) :
    step s = .next { taken s ws with ld := .collecting r c (e ++ [sint32 w]) } := by
  rw [step_of_collecting hreset hbusy hld hwords, payloadStep_more hlen.ne]

/-- The last payload word clears the collector and performs LDBM of the matrix collected. -/
theorem step_payload_last (hlen : e.length + 1 = r.val * c.val) :
    step s = exec (.ldbm (.matrix (payloadMatrix r.val c.val (e ++ [sint32 w])))) { taken s ws with ld := .none } := by
  rw [step_of_collecting hreset hbusy hld hwords, payloadStep_last hlen]

end Payload

/-- Settles O33: the two cases of the payload step, and the laws of the payload's matrix. -/
theorem payloadWordsAreElements : Obligations.PayloadWordsAreElements := by
  refine fun s r c e w ws hreset hbusy hld hwords =>
    ⟨step_payload_more hreset hbusy hld hwords, fun hlen => ⟨_, step_payload_last hreset hbusy hld hwords hlen, ?_⟩⟩
  exact ⟨length_payloadMatrix .., fun row => length_of_mem_payloadMatrix, fun i j => getD_payloadMatrix _⟩

/-! ### All of them -/

theorem resetAsserted_of_resetIn_nil {s : State} (h : s.resetIn = []) : s.resetAsserted = false := by
  simp [State.resetAsserted, h]

/-- With no reset sample lined up, taking a word takes nothing else. -/
theorem taken_of_resetIn_nil {s : State} (h : s.resetIn = []) (ws : List Word) :
    taken s ws = { s with words := ws } := by
  simp [taken, h]

/-- A run of one step is that step. -/
theorem run_one_eq_step (s : State) : run 1 s = step s := by
  obtain ⟨t, hstep, -⟩ := step_case s
  rw [run_one hstep, hstep]

/-- The payload words still missing, presented in front of others, perform LDBM of all elements, those collected before
and those they carry: all but the last lengthen the collector, and the last one completes it. -/
theorem run_payload (payload : List Word) (hne : payload ≠ []) {s : State} {r c : Fin 256} {e : List Int}
    {ws : List Word} (hreset : s.resetIn = []) (hbusy : s.busy = false) (hld : s.ld = .collecting r c e)
    (hwords : s.words = payload ++ ws) (hlen : e.length + payload.length = r.val * c.val) :
    run payload.length s = exec (.ldbm (.matrix (payloadMatrix r.val c.val (e ++ payload.map sint32))))
      { s with words := ws, ld := .none } := by
  induction payload generalizing s e with
  | nil => exact absurd rfl hne
  | cons w rest ih =>
    have hnoReset := resetAsserted_of_resetIn_nil hreset
    cases rest with
    | nil =>
      have hstep := step_payload_last hnoReset hbusy hld hwords hlen
      rw [taken_of_resetIn_nil hreset] at hstep
      exact (run_one_eq_step s).trans hstep
    | cons next more =>
      simp only [List.length_cons] at hlen ih
      have hstep := step_payload_more hnoReset hbusy hld hwords (by omega)
      rw [taken_of_resetIn_nil hreset] at hstep
      have hmissing : (e ++ [sint32 w]).length + (more.length + 1) = r.val * c.val := by
        rw [List.length_append, List.length_singleton]
        omega
      rw [List.length_cons, List.length_cons, run_succ hstep]
      refine (ih (List.cons_ne_nil _ _) (by exact hreset) (by exact hbusy) (by exact rfl) (by exact rfl)
        hmissing).trans ?_
      simp

/-! ### The whole request -/

/-- A matrix without elements is its rows, all of them empty. -/
theorem eq_replicate_nil {m : List (List Int)} (hrect : ∀ row ∈ m, row.length = colCount m)
    (hempty : m.length * colCount m = 0) : m = List.replicate m.length [] := by
  refine List.eq_replicate_iff.mpr ⟨rfl, fun row hrow => ?_⟩
  have hpos : m.length ≠ 0 := fun hnone => by simp [List.length_eq_zero_iff.mp hnone] at hrow
  have hcols := (Nat.mul_eq_zero.mp hempty).resolve_left hpos
  exact List.length_eq_zero_iff.mp ((hrect row hrow).trans hcols)

/-- The step of a block between requests that takes a matrix's header performs the header's request (R59, R104). -/
theorem step_matrix_header {m : List (List Int)} {s : State} {rest : List Word} (hrows : m.length < 256)
    (hcols : colCount m < 256) (hbusy : s.busy = false) (hld : s.ld = .none) (hreset : s.resetIn = [])
    (hwords : s.words =
      mkWord 0x5 (BitVec.ofNat 8 m.length) (BitVec.ofNat 8 (colCount m)) 0 :: rest) :
    step s = exec (.ldbm (.header ⟨m.length, hrows⟩ ⟨colCount m, hcols⟩)) { s with words := rest } := by
  have hpresents : s.Presents _ rest := ⟨resetAsserted_of_resetIn_nil hreset, hbusy, hld, hwords⟩
  rw [stepRunsTheDecodedRequest s _ rest _ hpresents (decode_matrix_header hrows hcols), taken_of_resetIn_nil hreset]

/-- Settles O34: the header of a matrix without elements performs it at once; any other header starts the collector, and
`run_payload` gives the rest of the run. -/
theorem ldbmWordsPerformTheTerm : Obligations.LdbmWordsPerformTheTerm := by
  intro m s ws hwf hbusy hld hreset hwords
  obtain ⟨hrows, hcols, hrect, hfits⟩ := matrixFits_iff.mp hwf
  have hlen : m.flatten.length = m.length * colCount m := length_flatten_rect hrect
  have hheader := step_matrix_header hrows hcols hbusy hld hreset hwords
  by_cases hempty : m.length * colCount m = 0
  · have hflat : m.flatten = [] := List.length_eq_zero_iff.mp (hlen.trans hempty)
    rw [encode, hflat, List.map_nil, List.length_singleton, run_one_eq_step, hheader, exec_header_empty hempty,
      ← eq_replicate_nil hrect hempty, hflat]
    rfl
  · have hpayload : (m.flatten.map payloadWord).length = m.length * colCount m := by rw [List.length_map, hlen]
    have hne := List.ne_nil_of_length_pos (hpayload ▸ Nat.pos_of_ne_zero hempty)
    have hcleared : ({ s with words := ws, ld := .none } : State) = { s with words := ws } := by rw [← hld]
    rw [exec_header_collects hempty] at hheader
    rw [encode, List.length_cons, run_succ hheader]
    refine (run_payload _ hne (by exact hreset) (by exact hbusy) (by exact rfl) (by exact rfl)
      (by rw [List.length_nil, Nat.zero_add, hpayload])).trans ?_
    rw [List.nil_append, map_sint32_payloadWord hfits, payloadMatrix_flatten hrect]
    exact congrArg _ hcleared

end Sys2Proof.Machine
end

section
/-! PROOFS. FLUSH, SETBLK and SETBRT as requests (R94 to R98) and the refusals of DEAD mode (R109); FLUSH and the reset
sequence as runs, with a failed item anywhere (R101, R102, R126); and what their traces tell of the chip (R45, U1). -/

namespace Sys2Proof.Machine

open Sys2Proof.Claims

/-! ### The requests -/

/-- In DEAD mode FLUSH is answered with InitializationError (R95). -/
theorem exec_flush_dead {s : State} (h : s.mode = .dead) : exec .flush s = .next (answer s 6 0x00) :=
  congrArg Host.Outcome.next (deadGuard_dead h _)

/-- A live FLUSH queues the snapshot (R94, R95). -/
theorem exec_flush_live {s : State} (h : s.mode ≠ .dead) :
    exec .flush s = .next { s with txq := itemsOf s.buf } := by
  rw [← flushItems_eq_itemsOf]
  exact congrArg Host.Outcome.next (deadGuard_live h _)

/-- In DEAD mode SETBLK is answered with InitializationError, whatever its operand (R97). -/
theorem exec_setblk_dead {s : State} (h : s.mode = .dead) (mode : Int) :
    exec (.setblk mode) s = .next (answer s 6 0x00) :=
  congrArg Host.Outcome.next (deadGuard_dead h _)

/-- In DEAD mode SETBRT is answered with InitializationError, whatever its operand (R98). -/
theorem exec_setbrt_dead {s : State} (h : s.mode = .dead) (level : Int) :
    exec (.setbrt level) s = .next (answer s 6 0x00) :=
  congrArg Host.Outcome.next (deadGuard_dead h _)

/-- Settles O35: FLUSH by the mode, and its word. -/
theorem flushQueuesTheSnapshot : Obligations.FlushQueuesTheSnapshot := by
  refine ⟨fun s => ?_, decode_flush_word⟩
  split
  · next hdead => exact exec_flush_dead hdead
  · next hlive => exact exec_flush_live hlive

/-- Settles O36: SETBLK by the mode and its operand, and its word. -/
theorem setblkQueuesOneRawWrite : Obligations.SetblkQueuesOneRawWrite := by
  refine ⟨fun mode s => ?_, decode_setblk_word⟩
  split_ifs with hdead hvalid
  · exact exec_setblk_dead hdead mode
  · rw [exec_setblk_valid hdead hvalid, encBlk_blinkIndex hvalid]
    rfl
  · exact exec_setblk_invalid hdead hvalid

/-- Settles O37: SETBRT by the mode and its operand, and its word. -/
theorem setbrtQueuesOneRawWrite : Obligations.SetbrtQueuesOneRawWrite := by
  refine ⟨fun level s => ?_, decode_setbrt_word⟩
  split_ifs with hdead hvalid
  · exact exec_setbrt_dead hdead level
  · rw [exec_setbrt_valid hdead hvalid, encBrt_levelIndex hvalid]
    rfl
  · exact exec_setbrt_invalid hdead hvalid

/-- Settles O42: the guard of each request that needs the device. -/
theorem deadModeRefusesTheDevice : Obligations.DeadModeRefusesTheDevice := by
  intro i s hi hdead
  cases i with
  | get row col => exact exec_get_dead hdead row col
  | set row col v => exact exec_set_dead hdead row col v
  | del row col => rw [exec_del, if_pos hdead]
  | fill v => exact exec_fill_dead hdead v
  | ldbm operand =>
    cases operand with
    | matrix m => exact exec_ldbm_dead hdead m
    | header r c => cases hi
  | flush => exact exec_flush_dead hdead
  | setblk mode => exact exec_setblk_dead hdead mode
  | setbrt level => exact exec_setbrt_dead hdead level
  | encsys | encblk | encbrt => cases hi

/-! ### Runs over the queue -/

section Sending

variable {s : State} {rs : List (Option Answer)} {k : Nat}

/-- With `k` answers `ok` lined up, fewer than there are items, `k` steps emit the first `k` items in order, and nothing
else happens. -/
theorem run_ok_take (hreset : s.resetIn = []) (hk : k < s.txq.length)
    (hrep : s.replies = List.replicate k (some .ok) ++ rs) :
    run k s = .next { s with txq := s.txq.drop k, replies := rs,
                             trace := s.trace ++ (s.txq.take k).map fun x => (x, Answer.ok) } := by
  have hlength : (s.txq.take k).length = k := List.length_take_of_le hk.le
  have hqueue : s.txq = s.txq.take k ++ s.txq[k] :: s.txq.drop (k + 1) := by
    rw [← List.drop_eq_getElem_cons hk, List.take_append_drop]
  have hrun := run_ok_items _ _ _ s rs hreset hqueue (by rw [hlength]; exact hrep)
  rwa [hlength, ← List.drop_eq_getElem_cons hk] at hrun

/-- In `k + 1` steps the first `k` items are emitted and the next one is answered as the transport answers it. -/
theorem run_ok_take_then (hreset : s.resetIn = []) (hk : k < s.txq.length) {ans : Answer}
    (hrep : s.replies = List.replicate k (some .ok) ++ some ans :: rs) :
    run (k + 1) s = .next (txStep ans { s with
      txq := s.txq[k] :: s.txq.drop (k + 1), replies := rs,
      trace := s.trace ++ (s.txq.take k).map fun x => (x, Answer.ok) }) := by
  have hrun := run_ok_take hreset hk hrep
  rw [List.drop_eq_getElem_cons hk] at hrun
  rw [run_add hrun]
  exact run_one (step_answered (by exact hreset) (by exact rfl) (by exact rfl))

/-- The items after the first `k`, cut to one, are item `k`. -/
theorem drop_take_one (hk : k < s.txq.length) : (s.txq.drop k).take 1 = [s.txq[k]] := by
  rw [List.drop_eq_getElem_cons hk]
  rfl

/-- Outside the reset sequence a failed item ends the request with TransportError and drops the items after it
(R101). -/
theorem run_fail_at (hreset : s.resetIn = []) (hmode : s.mode ≠ .init) (hk : k < s.txq.length)
    (hrep : s.replies = List.replicate k (some .ok) ++ some .fail :: rs) :
    run (k + 1) s = .next { answer s 5 0x00 with
      txq := [], replies := rs, trace := s.trace ++ (s.txq.take k).map (fun x => (x, Answer.ok)) ++
        ((s.txq.drop k).take 1).map fun x => (x, Answer.fail) } := by
  rw [run_ok_take_then hreset hk hrep, drop_take_one hk]
  exact congrArg _ (txStep_fail rfl hmode)

/-- In the reset sequence a failed item leaves DEAD mode and InitializationError, and drops the items after it
(R126). -/
theorem run_fail_at_init (hreset : s.resetIn = []) (hmode : s.mode = .init) (hk : k < s.txq.length)
    (hrep : s.replies = List.replicate k (some .ok) ++ some .fail :: rs) :
    run (k + 1) s = .next { answer s 6 0x00 with
      mode := .dead, txq := [], replies := rs, trace := s.trace ++ (s.txq.take k).map (fun x => (x, Answer.ok)) ++
        ((s.txq.drop k).take 1).map fun x => (x, Answer.fail) } := by
  rw [run_ok_take_then hreset hk hrep, drop_take_one hk]
  exact congrArg _ (txStep_fail_init rfl hmode)

/-- Outside the reset sequence as many answers `ok` as there are queued items emit them all in order and answer the
request with OK (R101). -/
theorem run_ok_all (hreset : s.resetIn = []) (hmode : s.mode ≠ .init) (hlength : s.txq.length = k + 1)
    (hrep : s.replies = List.replicate (k + 1) (some .ok) ++ rs) :
    run (k + 1) s = .next { answer s 0 0x00 with
      txq := [], replies := rs, trace := s.trace ++ s.txq.map fun x => (x, Answer.ok) } := by
  have hk : k < s.txq.length := by omega
  have hnone : s.txq.drop (k + 1) = [] := List.drop_eq_nil_of_le hlength.le
  have htrace : s.trace ++ s.txq.map (fun x => (x, Answer.ok)) =
      s.trace ++ (s.txq.take k).map (fun x => (x, Answer.ok)) ++ [(s.txq[k], .ok)] := by
    conv_lhs => rw [← List.take_length (l := s.txq), hlength, ← List.take_append_getElem hk, List.map_append,
      ← List.append_assoc]
    rfl
  rw [htrace, run_ok_take_then hreset hk (by simpa [List.replicate_succ'] using hrep), hnone]
  exact congrArg _ (txStep_ok_last rfl hmode)

end Sending

/-! ### What the trace of a row of register writes tells -/

/-- After the first `k` register writes, in ascending order and answered `ok`, each of those registers holds what was
written to it, and every other one is known as before. -/
theorem chipRegister_rows_ok (known : Trace) (f : Nat → Byte) (a : BitVec 4) {k : Nat} (hk : k ≤ 16) :
    chipRegister (known ++ (List.range k).map fun i => (TxItem.reg (BitVec.ofNat 4 i) (f i), Answer.ok)) a =
      if a.toNat < k then some (f a.toNat) else chipRegister known a := by
  induction k with
  | zero => simp
  | succ k ih =>
    have hreg : BitVec.ofNat 4 k = a ↔ k = a.toNat := by
      rw [← BitVec.toNat_inj, BitVec.toNat_ofNat, Nat.mod_eq_of_lt hk]
    rw [List.range_succ, List.map_append, ← List.append_assoc]
    refine (chipRegister_reg_ok _ a _ _).trans ?_
    rw [ih (by omega)]
    by_cases hwritten : k = a.toNat
    · simp [hwritten]
    · have hbelow : a.toNat < k + 1 ↔ a.toNat < k := by omega
      simp [hreg, hwritten, hbelow]

/-- After the first `k` register writes answered `ok` and the next answered `fail`, the registers below `k` hold what
was written to them and every other one is unknown (R45, U1). -/
theorem chipRegister_rows_fail (known : Trace) (f : Nat → Byte) (a : BitVec 4) {k : Nat} (hk : k < 16) :
    chipRegister (known ++ ((List.range k).map fun i => (TxItem.reg (BitVec.ofNat 4 i) (f i), Answer.ok)) ++
      [(TxItem.reg (BitVec.ofNat 4 k) (f k), Answer.fail)]) a = if a.toNat < k then some (f a.toNat) else none := by
  rw [chipRegister_reg_fail, chipRegister_rows_ok known f a hk.le, BitVec.toNat_ofNat, Nat.mod_eq_of_lt hk]
  by_cases hbelow : a.toNat < k
  · rw [if_neg (by omega), if_pos hbelow, if_pos hbelow]
  · rw [if_pos (by omega), if_neg hbelow]

end Sys2Proof.Machine
end

section
/-! PROOFS. What the answers to the items tell of the chip (R45, R102, R125, R128, U1), by the views of
Laws/Transport.lean: of one answered item, of a FLUSH and of the reset sequence, each with a failed item anywhere. -/

namespace Sys2Proof.Machine

open Sys2Proof.Claims

/-! ### One answered item -/

/-- Settles O58: the step appends its item with the answer to the trace, and each of the views' laws says what that
tells. -/
theorem answersTellOfTheChip : Obligations.AnswersTellOfTheChip := by
  intro s item rest ans rs h hrep
  have htrace := txStep_trace (s := { s with resetIn := s.resetIn.tail, replies := rs }) h.queued ans
  refine ⟨_, step_of_sends h hrep, fun b v hreg => ?register, fun b hraw =>
    ⟨fun hfail => ?rawFail, fun hok => ?rawOk⟩⟩ <;> rw [htrace]
  case register =>
    subst hreg
    refine ⟨fun c => chipCommand_reg .., fun a => ?_⟩
    cases ans with
    | ok =>
      rw [if_pos rfl]
      exact (chipRegister_reg_ok ..).trans (if_congr eq_comm rfl rfl)
    | fail =>
      rw [if_neg nofun, chipRegister_reg_fail]
      by_cases hbelow : a.toNat < b.toNat
      · rw [if_neg (Nat.not_le_of_lt hbelow), if_pos hbelow]
      · rw [if_pos (Nat.le_of_not_lt hbelow), if_neg hbelow]
  case rawFail =>
    subst hraw hfail
    exact ⟨fun c => chipCommand_raw_fail .., fun a => (chipRegister_raw_fail ..).trans (if_congr beq_iff_eq rfl rfl)⟩
  case rawOk =>
    subst hraw hok
    refine ⟨fun a => chipRegister_raw_ok .., fun c => (chipCommand_raw_ok ..).trans ?_⟩
    cases c <;> exact if_congr beq_iff_eq rfl rfl

/-! ### FLUSH -/

theorem length_itemsOf (m : Memory) : (itemsOf m).length = 16 := by simp [itemsOf]

/-- The first items of a FLUSH are those of the first rows (R94). -/
theorem take_itemsOf (m : Memory) {k : Nat} (hk : k ≤ 16) :
    (itemsOf m).take k = (List.range k).map fun i => .reg (BitVec.ofNat 4 i) (m.read i) := by
  rw [itemsOf, ← List.map_take, List.take_range, Nat.min_eq_left hk]

/-- Item `k` of a FLUSH is that of row `k` (R94). -/
theorem drop_take_one_itemsOf (m : Memory) {k : Nat} (hk : k < 16) :
    ((itemsOf m).drop k).take 1 = [.reg (BitVec.ofNat 4 k) (m.read k)] := by
  rw [List.take_one_drop_eq_of_lt_length (by rwa [length_itemsOf])]
  simp [itemsOf]

/-- Taking FLUSH's word between requests queues the snapshot (R95). -/
theorem step_flush {s : State} {ws : List Word} (h : s.Idle) (hw : s.words = 0x60000000#32 :: ws) :
    step s = .next { s with words := ws, txq := itemsOf s.buf } :=
  (step_of_idle h hw decode_flush_word).trans (exec_flush_live (s := { s with words := ws }) (live_of_run h.run))

/-- After a FLUSH answered `ok` throughout, every register holds its row (R102). -/
theorem chipRegister_itemsOf_ok (known : Trace) (m : Memory) (a : BitVec 4) :
    chipRegister (known ++ (itemsOf m).map fun x => (x, Answer.ok)) a = some (m.read a.toNat) := by
  have ha := a.isLt
  rw [itemsOf, List.map_map]
  refine (chipRegister_rows_ok known m.read a le_rfl).trans ?_
  rw [if_pos (by omega)]

/-- After a FLUSH with a failed item `k`, the registers below `k` hold their rows and every other one is unknown
(U1). -/
theorem chipRegister_itemsOf_fail (known : Trace) (m : Memory) (a : BitVec 4) {k : Nat} (hk : k < 16) :
    chipRegister (known ++ ((itemsOf m).take k).map (fun x => (x, Answer.ok)) ++
      [(TxItem.reg (BitVec.ofNat 4 k) (m.read k), Answer.fail)]) a =
        if a.toNat < k then some (m.read a.toNat) else none := by
  rw [take_itemsOf m hk.le, List.map_map]
  exact chipRegister_rows_fail known m.read a hk

/-- Settles O38: the word's step queues the 16 items; then `run_ok_all` or `run_fail_at` gives the rest of the run. -/
theorem flushAsOneTransaction : Obligations.FlushAsOneTransaction := by
  intro s ws rs hidle hw
  have hflush := step_flush hidle hw
  have hmode : s.mode ≠ .init := by simp [hidle.run]
  refine ⟨fun hrep => ⟨_, ?ok, rfl, fun a => chipRegister_itemsOf_ok s.trace s.buf a⟩,
    fun k hk hrep => ⟨_, ?fail, rfl, fun a => chipRegister_itemsOf_fail s.trace s.buf a hk⟩⟩
  case ok =>
    rw [run_succ hflush, run_ok_all (k := 15) (by exact hidle.noReset) (by exact hmode) (length_itemsOf s.buf)
      (by exact hrep), ← hidle.queue]
    rfl
  case fail =>
    rw [run_succ hflush, run_fail_at (by exact hidle.noReset) (by exact hmode) (by rwa [length_itemsOf])
      (by exact hrep), ← hidle.queue]
    simp only [drop_take_one_itemsOf _ hk]
    rfl

/-! ### The reset sequence -/

/-- The reset sequence is the system setup, the flush of the framebuffer of all zeros, and two more commands (R124). -/
theorem nineteenItems_eq : nineteenItems = .raw 0x21 :: (itemsOf [] ++ [.raw 0x81, .raw 0xEF]) := by
  rw [itemsOf_nil]
  rfl

/-- The answers to the first `k + 1` items, for `k` at most 16: that to the system setup and those to `k` rows. -/
theorem take_nineteenItems_ok (known : Trace) {k : Nat} (hk : k ≤ 16) :
    known ++ (nineteenItems.take (k + 1)).map (fun x => (x, Answer.ok)) =
      known ++ [(TxItem.raw 0x21, Answer.ok)] ++ ((itemsOf []).take k).map fun x => (x, Answer.ok) := by
  rw [nineteenItems_eq, List.take_succ_cons, List.take_append_of_le_length (by rwa [length_itemsOf]), List.map_cons,
    List.append_assoc]
  rfl

/-- Items 1 to 16 are the register writes (R124). -/
theorem drop_take_one_nineteenItems {k : Nat} (hk : k < 16) :
    (nineteenItems.drop (k + 1)).take 1 = [.reg (BitVec.ofNat 4 k) 0x00] := by
  have hrow : 1 ≤ ((itemsOf []).drop k).length := by rw [List.length_drop, length_itemsOf]; omega
  rw [nineteenItems_eq, List.drop_succ_cons, List.drop_append_of_le_length (by rw [length_itemsOf]; omega),
    List.take_append_of_le_length hrow]
  exact drop_take_one_itemsOf [] hk

/-- After the system setup and all 16 register writes of the reset sequence are answered `ok`, every register holds
0x00. -/
theorem chipRegister_cleared (known : Trace) (a : BitVec 4) :
    chipRegister (known ++ (nineteenItems.take 17).map fun x => (x, Answer.ok)) a = some 0x00 := by
  rw [take_nineteenItems_ok known le_rfl, List.take_of_length_le (length_itemsOf []).le]
  exact chipRegister_itemsOf_ok _ [] a

/-- What is known of the registers after a reset sequence whose item `k` failed: none of them after the system setup,
those written before the failed row, and all of them where only a command byte failed (R45, U1). -/
theorem chipRegister_nineteenItems_fail (known : Trace) (a : BitVec 4) {k : Nat} (hk : k < 19) :
    chipRegister (known ++ (nineteenItems.take k).map (fun x => (x, Answer.ok)) ++
      ((nineteenItems.drop k).take 1).map fun x => (x, Answer.fail)) a =
        if a.toNat + 1 < k then some 0x00 else none := by
  have ha := a.isLt
  obtain rfl | ⟨j, rfl, hj⟩ | rfl | rfl : k = 0 ∨ (∃ j, k = j + 1 ∧ j < 16) ∨ k = 17 ∨ k = 18 := by
    cases k with
    | zero => exact .inl rfl
    | succ j =>
      by_cases hj : j < 16
      · exact .inr (.inl ⟨j, rfl, hj⟩)
      · omega
  · exact chipRegister_raw_fail ..
  · rw [take_nineteenItems_ok known hj.le, drop_take_one_nineteenItems hj]
    refine (chipRegister_itemsOf_fail _ [] a hj).trans ?_
    simp
  · refine (chipRegister_raw_fail _ a 0x81).trans ?_
    rw [if_neg (by decide), chipRegister_cleared, if_pos (by omega)]
  · have htake : nineteenItems.take 18 = nineteenItems.take 17 ++ [.raw 0x81] := rfl
    rw [htake, List.map_append, ← List.append_assoc]
    refine (chipRegister_raw_fail _ a 0xEF).trans ?_
    rw [if_neg (by decide), if_pos (by omega), ← chipRegister_cleared known a]
    exact chipRegister_raw_ok _ a 0x81

/-- Settles O41: the reset state has the 19 items queued in INIT mode, so `run_fail_at_init` gives the run, and the
chip's registers are those of `chipRegister_nineteenItems_fail`. -/
theorem resetSequenceAborts : Obligations.ResetSequenceAborts := by
  intro s rs k hk hs
  have hqueue : s.txq = nineteenItems := (congrArg State.txq hs).trans resetSequence_eq_nineteenItems
  have hrun := run_fail_at_init (s := s) (k := k) (rs := rs) (congrArg State.resetIn hs) (congrArg State.mode hs)
    (by rwa [hqueue, nineteenItems_length]) (congrArg State.replies hs)
  rw [hqueue] at hrun
  exact ⟨_, hrun, memRead_of_buf_nil (congrArg State.buf hs), rfl,
    fun a => chipRegister_nineteenItems_fail s.trace a hk⟩

/-- Register writes tell nothing of the configuration. -/
theorem chipCommand_rows_ok (known : Trace) (m : Memory) (rows : List Nat) (c : Command) :
    chipCommand (known ++ rows.map fun i => (TxItem.reg (BitVec.ofNat 4 i) (m.read i), Answer.ok)) c =
      chipCommand known c := by
  induction rows generalizing known with
  | nil => simp
  | cons r rest ih => rw [List.map_cons, List.append_cons, ih, chipCommand_reg]

/-- After the system setup and all 16 register writes of the reset sequence, the configuration is what it was but for
the system setup. -/
theorem chipCommand_cleared (known : Trace) (c : Command) :
    chipCommand (known ++ (nineteenItems.take 17).map fun x => (x, Answer.ok)) c =
      if c.selects 0x21 then some 0x21 else chipCommand known c := by
  rw [take_nineteenItems_ok known le_rfl, List.take_of_length_le (length_itemsOf []).le, itemsOf, List.map_map]
  exact (chipCommand_rows_ok _ [] (List.range 16) c).trans (chipCommand_raw_ok ..)

/-- The answers to all 19 items: those up to the last register write, and those to the blink and the brightness. -/
theorem nineteenItems_ok (known : Trace) : known ++ nineteenItems.map (fun x => (x, Answer.ok)) =
    known ++ (nineteenItems.take 17).map (fun x => (x, Answer.ok)) ++ [(TxItem.raw 0x81, Answer.ok)] ++
      [(TxItem.raw 0xEF, Answer.ok)] := by
  rw [List.append_assoc, List.append_assoc]
  rfl

/-- Settles O57: by O40's run the trace is the answers to all 19 items; each command is the last of its selector, and
neither of the last two changes a register. -/
theorem completedResetSequenceWritesTheChip : Obligations.CompletedResetSequenceWritesTheChip := by
  intro s rs hs
  obtain ⟨⟨t, hrun, -, rfl⟩, -⟩ := resetSequenceCompletes s rs hs
  refine ⟨_, hrun, fun a => ?registers, ?setup, ?blink, ?brightness⟩ <;> simp only [nineteenItems_ok]
  case registers => rw [chipRegister_raw_ok, chipRegister_raw_ok, chipRegister_cleared]
  case setup =>
    rw [chipCommand_raw_ok, if_neg (by decide), chipCommand_raw_ok, if_neg (by decide), chipCommand_cleared,
      if_pos (by decide)]
  case blink => rw [chipCommand_raw_ok, if_neg (by decide), chipCommand_raw_ok, if_pos (by decide)]
  case brightness => rw [chipCommand_raw_ok, if_pos (by decide)]

end Sys2Proof.Machine
end
